-- ==== Sys2Proof/Word.lean ====
section
/-! DEFINITION. The word type of the engine. R14: a word is an unsigned integer in [0, 2^W) and arithmetic wraps,
which is what BitVec's own `+`, `-`, `*`, `^^^`, `<<<` and `>>>` do (R16, R84). -/

namespace Sys2Proof

/-- A word of `w` bits (R14). -/
abbrev Word (w : Nat) : Type := BitVec w

/-- A byte of the key buffer (R39). -/
abbrev Byte : Type := BitVec 8

end Sys2Proof
end

