-- ==== Sys2Proof/Config.lean ====
section
/-! DEFINITION. What an instance of the engine fixes at elaboration (00_scope.md R6 to R13), and the free values the
spec leaves open. -/

namespace Sys2Proof

/-- The three legal word widths (R6). For W = 32 the spec fixes P_W and Q_W; for W = 16 and W = 64 they are
parameters of the instance (R12, R94; assumption 12). -/
inductive Width where
  | w16 (p q : BitVec 16)
  | w32
  | w64 (p q : BitVec 64)
  deriving DecidableEq, Repr

/-- W in bits (R6). -/
abbrev Width.bits : Width → Nat
  | .w16 _ _ => 16
  | .w32 => 32
  | .w64 _ _ => 64

/-- LGW = log2 W (R7). -/
abbrev Width.lg : Width → Nat
  | .w16 _ _ => 4
  | .w32 => 5
  | .w64 _ _ => 6

/-- Where an access stands on the platform's bus: its byte offset in the engine's window, whose base the platform
chooses (R46), and its size in bytes. -/
structure Span where
  offset : Nat
  size   : Nat
  deriving DecidableEq, Repr

/-- One row of a platform's own binding: the bus accesses that together carry one access of register `idx`, the one
with its lowest bits first. -/
structure BindingRow where
  spans : List Span
  idx   : BitVec 12
  deriving DecidableEq, Repr

/-- BUS_BINDING: how register indices are bound onto the platform's bus (R46). A platform's own binding is its table
(assumption 9). -/
inductive BusBinding where
  | default
  | platform (rows : List BindingRow)
  deriving DecidableEq, Repr

/-- The parameters of one instance. The types admit the legal values only: W in 16, 32, 64 (R6), R in 0..255 (R8),
B_MAX in 0..255 (R10). BUS_BINDING is left to the platform (R46). -/
structure Params where
  width   : Width
  rounds  : Fin 256
  keyMax  : Fin 256
  binding : BusBinding
  deriving DecidableEq, Repr

/-- W, the word width in bits (R6). -/
abbrev Params.W (p : Params) : Nat := p.width.bits
/-- LGW = log2 W (R7). -/
abbrev Params.LGW (p : Params) : Nat := p.width.lg
/-- U = W / 8, the bytes of a word (R7). -/
abbrev Params.U (p : Params) : Nat := p.W / 8
/-- R, the round count (R8). -/
abbrev Params.R (p : Params) : Nat := p.rounds.val
/-- T = 2R + 4, the words of the round-key table (R9). -/
abbrev Params.T (p : Params) : Nat := 2 * p.R + 4
/-- B_MAX, the bytes of the key buffer (R10). -/
abbrev Params.B_MAX (p : Params) : Nat := p.keyMax.val
/-- C_MAX = max(1, ceil(B_MAX / U)), the words of L (R11); ceil as R16 gives it. -/
abbrev Params.C_MAX (p : Params) : Nat := max 1 ((p.B_MAX + p.U - 1) / p.U)
/-- WD = max(32, W), the width of the host data path (R13). -/
abbrev Params.WD (p : Params) : Nat := max 32 p.W

/-- The reference instance RC6-32/20 with a 32-byte key buffer (R6, R8, R10), on the default binding (R46). -/
def Params.reference : Params := { width := .w32, rounds := 20, keyMax := 32, binding := .default }

/-- The width that elaboration builds for W = `w`; none where it refuses (R6). `pw` and `qw` are P_W and Q_W for
W = 16 and W = 64, and are not used for W = 32, whose constants are fixed (R12). DESIGN CHOICE: a `pw` or `qw` that
does not fit in W bits is cut to its low W bits and the instance is built; the spec names a refusal for W, R and B_MAX
only (assumption 20). -/
def Width.elaborate (w pw qw : Nat) : Option Width :=
  if w = 16 then some (.w16 (BitVec.ofNat 16 pw) (BitVec.ofNat 16 qw))
  else if w = 32 then some .w32
  else if w = 64 then some (.w64 (BitVec.ofNat 64 pw) (BitVec.ofNat 64 qw))
  else none

/-- Elaboration: an instance for legal W, R and B_MAX, and no hardware otherwise (R6, R8, R10), on the binding the
platform gives it (R46). -/
def Params.elaborate (w r b pw qw : Nat) (binding : BusBinding) : Option Params :=
  match Width.elaborate w pw qw with
  | none => none
  | some width =>
    if hr : r < 256 then
      if hb : b < 256 then some { width, rounds := ⟨r, hr⟩, keyMax := ⟨b, hb⟩, binding } else none
    else none

/-- Free value (assumption 3): draw `n` of a command's latency, less the one step every command takes (R77). -/
opaque Config.freeLatency : Nat → Nat

/-- Free value (assumptions 4 and 7): draw `n` of the data a read returns where the spec leaves it unspecified
(R81, R134). Its low bits are taken at the width read. -/
opaque Config.freeData : Nat → BitVec 64

end Sys2Proof
end

