-- ==== Sys2Proof/Syntax.lean ====
section
/-! DEFINITION. The commands of the engine, one constructor per row of spec/opcode_table.json (R67). -/

namespace Sys2Proof

/-- The block registers BLK0..BLK3, named A, B, C and D (R34, R64). -/
inductive BlkReg where
  | A | B | C | D
  deriving DecidableEq, Repr

/-- A command (R67, R71), operands in assembler order, the destination first. The immediate is a number; a legal
one is in 0..63 (R65), which `Instr.wellFormed` checks. -/
inductive Instr where
  | nop
  | keyclr
  | sched
  | enc
  | dec
  | rotl   (rd rs1 rs2 : BlkReg)
  | rotr   (rd rs1 rs2 : BlkReg)
  | rotli  (rd rs1 : BlkReg) (imm : Nat)
  | rotri  (rd rs1 : BlkReg) (imm : Nat)
  | mulmix (rd rs1 : BlkReg)
  deriving DecidableEq, Repr

end Sys2Proof
end

