-- ==== Sys2Proof/WellFormed.lean ====
section
/-! DEFINITION. Which commands have an encoding. A register operand is one of A to D by its type; the one check is
the immediate's range (R65, R71). -/

namespace Sys2Proof

/-- R65, R71: the immediate is a number from 0 to 63. Every other operand is legal by its type. -/
def Instr.wellFormed : Instr → Bool
  | .nop => true
  | .keyclr => true
  | .sched => true
  | .enc => true
  | .dec => true
  | .rotl _ _ _ => true
  | .rotr _ _ _ => true
  | .rotli _ _ imm => decide (imm ≤ 63)
  | .rotri _ _ imm => decide (imm ≤ 63)
  | .mulmix _ _ => true

end Sys2Proof
end

