-- ==== Sys2Proof/Decode.lean ====
section
/-! DEFINITION. Command words: decoding (30_encoding.md R62 to R69), total on 32-bit words and naming why a word is
illegal; the encoder; and the opcode map's match and mask rows (R67). -/

namespace Sys2Proof

/-- Why a command word is illegal: the three cases of R69. -/
inductive IllegalWord where
  /-- R69 (a): OP is 0xA to 0xF. -/
  | reservedOpcode
  /-- R69 (b), R66: bits [31:16] are not all zero. -/
  | reservedBits
  /-- R69 (c), R68: a field the command does not use is not zero. -/
  | unusedField
  deriving DecidableEq, Repr

/-- OP, bits [3:0] (R62, R63). -/
def opOf (w : BitVec 32) : BitVec 4 := w.extractLsb' 0 4
/-- RD, bits [5:4] (R62). -/
def rdOf (w : BitVec 32) : BitVec 2 := w.extractLsb' 4 2
/-- RS1, bits [7:6] (R62). -/
def rs1Of (w : BitVec 32) : BitVec 2 := w.extractLsb' 6 2
/-- RS2, bits [9:8] (R62). -/
def rs2Of (w : BitVec 32) : BitVec 2 := w.extractLsb' 8 2
/-- IMM, bits [15:10] (R62, R65). -/
def immOf (w : BitVec 32) : BitVec 6 := w.extractLsb' 10 6
/-- The reserved bits [31:16] (R62, R66). -/
def reservedOf (w : BitVec 32) : BitVec 16 := w.extractLsb' 16 16

/-- A register field as a block register: 0 = A, 1 = B, 2 = C, 3 = D (R64). -/
def BlkReg.ofBits (b : BitVec 2) : BlkReg :=
  match b.toNat with
  | 0 => .A
  | 1 => .B
  | 2 => .C
  | _ => .D

/-- The index of a block register, as a 2-bit field (R64). -/
def BlkReg.toBits : BlkReg → BitVec 2
  | .A => 0
  | .B => 1
  | .C => 2
  | .D => 3

/-- `i` where the fields it does not use are zero, and illegal otherwise (R68, R69 (c)). -/
def ifUnusedZero (zero : Bool) (i : Instr) : Except IllegalWord Instr :=
  if zero then .ok i else .error .unusedField

/-- The command a word encodes, or why it is illegal (R67, R68, R69). -/
def decode (w : BitVec 32) : Except IllegalWord Instr :=
  let rd := BlkReg.ofBits (rdOf w)
  let rs1 := BlkReg.ofBits (rs1Of w)
  let rs2 := BlkReg.ofBits (rs2Of w)
  let imm := (immOf w).toNat
  let noRd := rdOf w == 0
  let noRs1 := rs1Of w == 0
  let noRs2 := rs2Of w == 0
  let noImm := immOf w == 0
  if reservedOf w == 0 then
    match (opOf w).toNat with
    | 0x0 => ifUnusedZero (noRd && noRs1 && noRs2 && noImm) .nop
    | 0x1 => ifUnusedZero (noRd && noRs1 && noRs2 && noImm) .keyclr
    | 0x2 => ifUnusedZero (noRd && noRs1 && noRs2 && noImm) .sched
    | 0x3 => ifUnusedZero (noRd && noRs1 && noRs2 && noImm) .enc
    | 0x4 => ifUnusedZero (noRd && noRs1 && noRs2 && noImm) .dec
    | 0x5 => ifUnusedZero noImm (.rotl rd rs1 rs2)
    | 0x6 => ifUnusedZero noImm (.rotr rd rs1 rs2)
    | 0x7 => ifUnusedZero noRs2 (.rotli rd rs1 imm)
    | 0x8 => ifUnusedZero noRs2 (.rotri rd rs1 imm)
    | 0x9 => ifUnusedZero (noRs2 && noImm) (.mulmix rd rs1)
    | _ => .error .reservedOpcode
  else .error .reservedBits

/-- A command word from its fields, in the layout of R62. -/
def packWord (op : BitVec 4) (rd rs1 rs2 : BitVec 2) (imm : BitVec 6) : BitVec 32 :=
  0#16 ++ imm ++ rs2 ++ rs1 ++ rd ++ op

/-- The command word of a command (R62, R67, R71). For a command that is not well formed the immediate is cut to its
six bits. -/
def encode : Instr → BitVec 32
  | .nop => packWord 0x0 0 0 0 0
  | .keyclr => packWord 0x1 0 0 0 0
  | .sched => packWord 0x2 0 0 0 0
  | .enc => packWord 0x3 0 0 0 0
  | .dec => packWord 0x4 0 0 0 0
  | .rotl rd rs1 rs2 => packWord 0x5 rd.toBits rs1.toBits rs2.toBits 0
  | .rotr rd rs1 rs2 => packWord 0x6 rd.toBits rs1.toBits rs2.toBits 0
  | .rotli rd rs1 imm => packWord 0x7 rd.toBits rs1.toBits 0 (BitVec.ofNat 6 imm)
  | .rotri rd rs1 imm => packWord 0x8 rd.toBits rs1.toBits 0 (BitVec.ofNat 6 imm)
  | .mulmix rd rs1 => packWord 0x9 rd.toBits rs1.toBits 0 0

/-- One row of the opcode map: a word `x` encodes the command exactly when `x &&& mask = pattern` (R67). -/
structure OpcodeRow where
  pattern : BitVec 32
  mask    : BitVec 32
  deriving DecidableEq, Repr

/-- Whether a word is one of the row's words (R67). -/
def OpcodeRow.covers (r : OpcodeRow) (x : BitVec 32) : Bool := (x &&& r.mask) == r.pattern

/-- The row of a command in the opcode map of R67, its `match` and `mask` columns. -/
def Instr.row : Instr → OpcodeRow
  | .nop => ⟨0x00000000, 0xFFFFFFFF⟩
  | .keyclr => ⟨0x00000001, 0xFFFFFFFF⟩
  | .sched => ⟨0x00000002, 0xFFFFFFFF⟩
  | .enc => ⟨0x00000003, 0xFFFFFFFF⟩
  | .dec => ⟨0x00000004, 0xFFFFFFFF⟩
  | .rotl _ _ _ => ⟨0x00000005, 0xFFFFFC0F⟩
  | .rotr _ _ _ => ⟨0x00000006, 0xFFFFFC0F⟩
  | .rotli _ _ _ => ⟨0x00000007, 0xFFFF030F⟩
  | .rotri _ _ _ => ⟨0x00000008, 0xFFFF030F⟩
  | .mulmix _ _ => ⟨0x00000009, 0xFFFFFF0F⟩

/-- The opcode map of R67, its ten rows in the table's order. -/
def opcodeTable : List OpcodeRow :=
  [Instr.nop.row, Instr.keyclr.row, Instr.sched.row, Instr.enc.row, Instr.dec.row,
   (Instr.rotl .A .A .A).row, (Instr.rotr .A .A .A).row, (Instr.rotli .A .A 0).row, (Instr.rotri .A .A 0).row,
   (Instr.mulmix .A .A).row]

/-- What the decoder reads from a word of `nbits` bits numbered as spec/opcode_table.json numbers them; bits above
`nbits` are 0, and bits above the 32 of a command word are not examined (R48, R61). -/
def decodeTableWord (nbits w : Nat) : Option Instr :=
  match decode (BitVec.ofNat 32 (w % 2 ^ nbits)) with
  | .ok i => some i
  | .error _ => none

end Sys2Proof
end

