-- ==== Sys2Proof/Machine/State.lean ====
section
/-! DEFINITION. The state of one engine and of its ports (10_state.md R20 to R43; 70_reset_and_hazards.md R135),
the reasons a step stops, and the state right after reset. -/

namespace Sys2Proof.Machine

/-- A block: four words (A, B, C, D) (R34). -/
structure Block (w : Nat) where
  a : Word w
  b : Word w
  c : Word w
  d : Word w
  deriving DecidableEq, Repr

/-- The sequencer (R41). PENDING and REMAIN are held while PHASE = RUN and mean nothing while IDLE, so they exist in
RUN only (assumption 2). -/
inductive Phase where
  | idle
  | run (pending : BitVec 32) (remain : Nat)
  deriving DecidableEq, Repr

/-- The codes ERROR.CODE can hold (R113): 0, and 1 to 6 in the table's order. Codes 7 to 15 are never recorded. -/
inductive ErrorCode where
  | noError
  | illegalCmd
  | keylenMismatch
  | noKey
  | busy
  | keyOverflow
  | keylenRange
  deriving DecidableEq, Repr

/-- The state that reset sets (R135). STATUS.BUSY is PHASE = RUN (R41) and STATUS.IRQ is a function of the rest
(R125): neither is stored twice. -/
structure Engine (p : Params) where
  /-- CTRL.DIE (R26). -/
  die      : Bool
  /-- CTRL.EIE (R26). -/
  eie      : Bool
  /-- STATUS.DONE (R27). -/
  done     : Bool
  /-- STATUS.KEY_VALID (R27). -/
  keyValid : Bool
  /-- ERROR.CODE (R28, R113). -/
  errCode  : ErrorCode
  /-- ERROR.MORE (R28). -/
  errMore  : Bool
  /-- ERROR.IDX (R28). -/
  errIdx   : BitVec 12
  /-- ERRDATA (R29). -/
  errData  : BitVec p.WD
  /-- KEYLEN.LEN (R31). -/
  keyLen   : BitVec 8
  /-- KEYCNT.COUNT (R33). -/
  keyCount : BitVec 8
  /-- BLK[0..3] (R34). -/
  blk      : Block p.W
  /-- The round-key table S[0..T-1] (R38). -/
  skey     : Vector (Word p.W) p.T
  /-- The key buffer K[0..B_MAX-1] (R39). -/
  key      : Vector Byte p.B_MAX
  /-- The key-word file L[0..C_MAX-1] (R40). -/
  lwords   : Vector (Word p.W) p.C_MAX
  /-- PHASE, PENDING and REMAIN (R41). -/
  phase    : Phase
  deriving DecidableEq, Repr

/-- One host access: a read or a write of one register (R45). -/
inductive Access (p : Params) where
  | read (idx : BitVec 12)
  | write (idx : BitVec 12) (v : BitVec p.WD)
  deriving DecidableEq, Repr

/-- One write on the platform's bus: where it stands and the number it carries. -/
structure WriteBeat where
  span : Span
  data : BitVec (8 * span.size)
  deriving DecidableEq, Repr

/-- The accesses on the platform's bus that are meant as one register access (R46): one under the default binding, as
many as the platform's own binding asks for otherwise, the one with the lowest bits first. -/
inductive BusAccess where
  | read (spans : List Span)
  | write (beats : List WriteBeat)
  deriving DecidableEq, Repr

/-- What happens next to the engine. The list of these in `State` is the environment's schedule (assumption 6). -/
inductive Event (p : Params) where
  /-- An engine step (R76, R77). -/
  | engine
  /-- A host step (R45). -/
  | host (a : Access p)
  /-- An access on the platform's bus, under the instance's BUS_BINDING (R46, R54). -/
  | bus (b : BusAccess)
  /-- rst_n falls (R134). -/
  | assertReset
  /-- rst_n rises (R134). -/
  | releaseReset
  /-- The host's WAIT loop (R73). -/
  | waitIdle
  deriving DecidableEq, Repr

/-- One instance of the engine, its ports, and what its environment does next. -/
structure State where
  /-- The instance's parameters, BUS_BINDING among them; no step changes them (assumption 1). -/
  params : Params
  /-- Everything reset sets (R135). -/
  eng    : Engine params
  /-- The level of rst_n (R44, R134): false while reset is asserted. -/
  rstN   : Bool
  /-- h_rdata (R44): the data of the last host access where that was a read (assumption 8). -/
  hRdata : Option (BitVec params.WD)
  /-- The coming events, the next one first (assumption 6). The model's own. -/
  inputs : List (Event params)
  /-- The index of the next free value (assumption 14). The model's own. -/
  draws  : Nat
  deriving DecidableEq, Repr

/-- Why the machine stops. -/
inductive Fault where
  /-- Raised by an engine step that completes a PENDING word which is no command. No rule of the spec leads there: a
  word is latched only when it is legal (R74, R75). Safe: the model stops where the spec says nothing
  (assumption 10). -/
  | pendingIllegal
  deriving DecidableEq, Repr

/-- Why the model gives a step no meaning. -/
inductive Refusal where
  /-- An instruction without a meaning; raised by an arm of exec that has none. Safe. -/
  | notModelled (mnemonic : String)
  /-- Raised by a bus access that is not one whole-register host step: "the model refuses it" (R54). Safe
  (assumption 9). -/
  | unboundBusAccess
  deriving DecidableEq, Repr

/-- Every block register 0. -/
def Block.zero (w : Nat) : Block w := ⟨0, 0, 0, 0⟩

/-- The state of R135. -/
def Engine.reset (p : Params) : Engine p where
  die := false
  eie := false
  done := false
  keyValid := false
  errCode := .noError
  errMore := false
  errIdx := 0
  errData := 0
  keyLen := 0
  keyCount := 0
  blk := Block.zero p.W
  skey := Vector.replicate p.T 0
  key := Vector.replicate p.B_MAX 0
  lwords := Vector.replicate p.C_MAX 0
  phase := .idle

/-- An instance right after reset (R135): reset deasserted, no read presented, no event to come. -/
def State.resetOf (p : Params) : State where
  params := p
  eng := Engine.reset p
  rstN := true
  hRdata := none
  inputs := []
  draws := 0

/-- The reference instance right after reset. -/
def State.reset : State := State.resetOf Params.reference

end Sys2Proof.Machine
end

