-- ==== Sys2Proof/Machine/Ops.lean ====
section
/-! DEFINITION. The operations the engine's rules share: its files of words and bytes, little-endian assembly,
recording and clearing an error, accepting and completing a command, reset, and the free values. -/

namespace Sys2Proof.Machine

/-! ### Files (R38, R39, R40) -/

/-- Entry `i` of a file. The rules read entries that exist only; any other reads 0 (assumption 18). -/
def fileRead {n w : Nat} (f : Vector (BitVec w) n) (i : Nat) : BitVec w := f[i]?.getD 0

/-- Entry `i` of a file replaced. The rules write entries that exist only; any other write is dropped
(assumption 18). -/
def fileWrite {n w : Nat} (f : Vector (BitVec w) n) (i : Nat) (x : BitVec w) : Vector (BitVec w) n :=
  f.setIfInBounds i x

/-- A file of zeros. -/
def fileZero (n w : Nat) : Vector (BitVec w) n := Vector.replicate n 0

/-! ### Little-endian bytes (R52, R99) -/

/-- The sum over k in 0..n-1 of `x k * 2^(8k)`. -/
def leValue (x : Nat → Byte) : Nat → Nat
  | 0 => 0
  | n + 1 => leValue x n + (x n).toNat * 2 ^ (8 * n)

/-- Byte `k` of a word, its bits [8k+7 : 8k]. -/
def byteOf {w : Nat} (v : Word w) (k : Nat) : Byte := v.extractLsb' (8 * k) 8

/-! ### The sequencer -/

/-- STATUS.BUSY: 1 exactly when PHASE = RUN (R27, R41). -/
def Engine.busy {p : Params} (e : Engine p) : Bool :=
  match e.phase with
  | .idle => false
  | .run _ _ => true

/-- `raise Error(code)` during the host write of `v` to index `idx`: the first error is kept whole, a later one only
sets MORE (R121). Nothing else changes (R123). -/
def Engine.raiseError {p : Params} (e : Engine p) (code : ErrorCode) (idx : BitVec 12) (v : BitVec p.WD) : Engine p :=
  match e.errCode with
  | .noError => { e with errCode := code, errIdx := idx, errData := v }
  | .illegalCmd => { e with errMore := true }
  | .keylenMismatch => { e with errMore := true }
  | .noKey => { e with errMore := true }
  | .busy => { e with errMore := true }
  | .keyOverflow => { e with errMore := true }
  | .keylenRange => { e with errMore := true }

/-- The recorded error cleared (R122). -/
def Engine.clearError {p : Params} (e : Engine p) : Engine p :=
  { e with errCode := .noError, errMore := false, errIdx := 0, errData := 0 }

/-- AcceptEffect of a command (R75): SCHED clears KEY_VALID (R103), no other command has one. -/
def Engine.acceptEffect {p : Params} (e : Engine p) : Instr → Engine p
  | .nop => e
  | .keyclr => e
  | .sched => { e with keyValid := false }
  | .enc => e
  | .dec => e
  | .rotl _ _ _ => e
  | .rotr _ _ _ => e
  | .rotli _ _ _ => e
  | .rotri _ _ _ => e
  | .mulmix _ _ => e

/-- Accept(cmd) with the latency drawn for it: the word is latched, BUSY set, DONE cleared, then the command's
AcceptEffect (R75). -/
def Engine.accept {p : Params} (e : Engine p) (cmd : BitVec 32) (i : Instr) (lat : Nat) : Engine p :=
  { e with phase := .run cmd lat, done := false }.acceptEffect i

/-- The end of the busy period, after the command's own effect: PHASE IDLE, BUSY 0, DONE 1 (R78). -/
def Engine.finish {p : Params} (e : Engine p) : Engine p :=
  { e with phase := .idle, done := true }

/-- `Complete`: the command's effect on the engine, given as the engine it leaves, and the end of the busy period, at
once (R78). -/
def State.complete (s : State) (effect : Engine s.params) : State :=
  { s with eng := effect.finish }

/-! ### Reset (R134, R135, R136) -/

/-- rst_n falls: every piece of state takes its reset value at once, and a command in progress is abandoned. -/
def State.assertReset (s : State) : State :=
  { s with eng := Engine.reset s.params, rstN := false, hRdata := none }

/-- rst_n rises. -/
def State.releaseReset (s : State) : State :=
  { s with rstN := true }

/-! ### Free values (assumptions 3, 4, 7, 14) -/

/-- LAT of draw `n`: an integer of at least 1 (R77). -/
def latency (n : Nat) : Nat := Config.freeLatency n + 1

/-- A free value of a register's width `w`, zero-extended to WD bits (R81). -/
def freeRead (p : Params) (w n : Nat) : BitVec p.WD :=
  ((Config.freeData n).setWidth w).setWidth p.WD

/-! ### Where the next command completes -/

/-- The command word `w` latched in PENDING with one engine step left, reset deasserted, and that engine step the
next event (assumption 11). -/
def State.withPending (s : State) (w : BitVec 32) : State :=
  { s with
    eng := { s.eng with phase := .run w 1 }
    rstN := true
    inputs := .engine :: s.inputs }

end Sys2Proof.Machine
end

