-- ==== Sys2Proof/Machine/Operands.lean ====
section
/-! DEFINITION. Operand forms: a block register read or written (R64) and the rotation amounts (R65); and the two
leaf datapaths every command shares, the barrel shifter (R85, R86) and the multiply-mix unit (R88). -/

namespace Sys2Proof.Machine

/-- BLK[r] (R17, R64). -/
def Block.get {w : Nat} (b : Block w) : BlkReg → Word w
  | .A => b.a
  | .B => b.b
  | .C => b.c
  | .D => b.d

/-- `BLK[r] <- x` (R17, R64). -/
def Block.set {w : Nat} (b : Block w) (r : BlkReg) (x : Word w) : Block w :=
  match r with
  | .A => { b with a := x }
  | .B => { b with b := x }
  | .C => { b with c := x }
  | .D => { b with d := x }

/-- The engine with block register `r` replaced. -/
def Engine.setBlk {p : Params} (e : Engine p) (r : BlkReg) (x : Word p.W) : Engine p :=
  { e with blk := e.blk.set r x }

/-- `rotl(x, n)`: rotate left by `n mod W` (R85). The shifts and the `or` are W bits wide, so nothing stands above
bit W. -/
def rotl {w : Nat} (x : Word w) (n : Nat) : Word w :=
  let s := n % w
  if s = 0 then x else (x <<< s) ||| (x >>> (w - s))

/-- `rotr(x, n)`: rotate right by `n mod W` (R86). -/
def rotr {w : Nat} (x : Word w) (n : Nat) : Word w :=
  let s := n % w
  if s = 0 then x else (x >>> s) ||| (x <<< (w - s))

/-- `mulmix(x) = x(2x + 1) mod 2^W` (R88). -/
def mulmix {w : Nat} (x : Word w) : Word w := x * (2 * x + 1)

end Sys2Proof.Machine
end

