-- ==== Sys2Proof/Machine/Flags.lean ====
section
/-! DEFINITION. The interrupt level and the words the control and status registers read as. The engine has no
arithmetic flags (R37): these are its only status bits. -/

namespace Sys2Proof.Machine

/-- The 4-bit value of an error code (R113). -/
def ErrorCode.toBits : ErrorCode → BitVec 4
  | .noError => 0
  | .illegalCmd => 1
  | .keylenMismatch => 2
  | .noKey => 3
  | .busy => 4
  | .keyOverflow => 5
  | .keylenRange => 6

/-- The level of `irq` (R125). -/
def Engine.irq {p : Params} (e : Engine p) : Bool :=
  (e.die && e.done) || (e.eie && e.errCode.toBits != 0)

/-- ID: VERSION, KEYMAX, ROUNDS, WBITS (R25). -/
def idWord (p : Params) : BitVec 32 :=
  0x01#8 ++ BitVec.ofNat 8 p.B_MAX ++ BitVec.ofNat 8 p.R ++ BitVec.ofNat 8 p.W

/-- CTRL: EIE and DIE, the rest reserved (R26). -/
def Engine.ctrlWord {p : Params} (e : Engine p) : BitVec 32 :=
  0#30 ++ BitVec.ofBool e.eie ++ BitVec.ofBool e.die

/-- STATUS: IRQ, KEY_VALID, DONE, BUSY, the rest reserved (R27). -/
def Engine.statusWord {p : Params} (e : Engine p) : BitVec 32 :=
  0#28 ++ BitVec.ofBool e.irq ++ BitVec.ofBool e.keyValid ++ BitVec.ofBool e.done ++ BitVec.ofBool e.busy

/-- ERROR: IDX in [19:8], MORE in [4], CODE in [3:0], the rest reserved (R28). -/
def Engine.errorWord {p : Params} (e : Engine p) : BitVec 32 :=
  0#12 ++ e.errIdx ++ 0#3 ++ BitVec.ofBool e.errMore ++ e.errCode.toBits

/-- KEYLEN: LEN in [7:0] (R31). -/
def Engine.keylenWord {p : Params} (e : Engine p) : BitVec 32 := 0#24 ++ e.keyLen

/-- KEYCNT: COUNT in [7:0] (R33). -/
def Engine.keycntWord {p : Params} (e : Engine p) : BitVec 32 := 0#24 ++ e.keyCount

end Sys2Proof.Machine
end

