-- ==== Sys2Proof/Machine/RegisterMap.lean ====
section
/-! DEFINITION. The register map (10_state.md R21 to R24): indices, widths, and which registers are gated (R80) and
volatile (R81). -/

namespace Sys2Proof.Machine

/-- The registers of an instance (R22). -/
inductive Reg (p : Params) where
  | id | ctrl | status | error | errdata | cmd | keylen | keydata | keycnt
  | blk (r : BlkReg)
  | skey (i : Fin p.T)
  | unmapped
  deriving DecidableEq, Repr

/-- The registers below 0x100 (R22); an index not in the map is unmapped (R24). -/
def Reg.fixed (p : Params) (n : Nat) : Reg p :=
  if n = 0x000 then .id
  else if n = 0x001 then .ctrl
  else if n = 0x002 then .status
  else if n = 0x003 then .error
  else if n = 0x004 then .errdata
  else if n = 0x005 then .cmd
  else if n = 0x006 then .keylen
  else if n = 0x007 then .keydata
  else if n = 0x008 then .keycnt
  else if n = 0x010 then .blk .A
  else if n = 0x011 then .blk .B
  else if n = 0x012 then .blk .C
  else if n = 0x013 then .blk .D
  else .unmapped

/-- The register at an index (R22): round key i at 0x100 + i, for i < T; indices 0x100 + i with i >= T are unmapped
(R24). -/
def Reg.ofIndex (p : Params) (idx : BitVec 12) : Reg p :=
  if h : 0x100 ≤ idx.toNat ∧ idx.toNat < 0x100 + p.T then .skey ⟨idx.toNat - 0x100, by omega⟩
  else Reg.fixed p idx.toNat

/-- The register's width in bits (R22). -/
def Reg.width {p : Params} : Reg p → Nat
  | .id => 32
  | .ctrl => 32
  | .status => 32
  | .error => 32
  | .errdata => p.WD
  | .cmd => 32
  | .keylen => 32
  | .keydata => 32
  | .keycnt => 32
  | .blk _ => p.W
  | .skey _ => p.W
  | .unmapped => 0

/-- Whether writes to it are rejected while busy (R80). -/
def Reg.gated {p : Params} : Reg p → Bool
  | .cmd => true
  | .keylen => true
  | .keydata => true
  | .blk _ => true
  | .id => false
  | .ctrl => false
  | .status => false
  | .error => false
  | .errdata => false
  | .keycnt => false
  | .skey _ => false
  | .unmapped => false

/-- Whether its read value is unspecified while busy (R81). -/
def Reg.volatile {p : Params} : Reg p → Bool
  | .blk _ => true
  | .skey _ => true
  | .keycnt => true
  | .id => false
  | .ctrl => false
  | .status => false
  | .error => false
  | .errdata => false
  | .cmd => false
  | .keylen => false
  | .keydata => false
  | .unmapped => false

end Sys2Proof.Machine
end

