-- ==== Sys2Proof/Machine/HostPort.lean ====
section
/-! DEFINITION. Register reads and writes (20_memory.md R45 to R51), the checks and rejections of a write
(60_exceptions.md R112 to R123), and the issue and acceptance of a command (40_command_protocol.md R74, R75). -/

namespace Sys2Proof.Machine

/-! ### Reads -/

/-- `RegRead` of a register whose value is final, zero-extended to WD bits (R47). CMD, KEYDATA and unmapped indices
read 0 (R23, R24). -/
def Engine.regRead {p : Params} (e : Engine p) (idx : BitVec 12) : BitVec p.WD :=
  match Reg.ofIndex p idx with
  | .id => (idWord p).setWidth p.WD
  | .ctrl => e.ctrlWord.setWidth p.WD
  | .status => e.statusWord.setWidth p.WD
  | .error => e.errorWord.setWidth p.WD
  | .errdata => e.errData
  | .cmd => 0
  | .keylen => e.keylenWord.setWidth p.WD
  | .keydata => 0
  | .keycnt => e.keycntWord.setWidth p.WD
  | .blk r => (e.blk.get r).setWidth p.WD
  | .skey i => (e.skey[i]).setWidth p.WD
  | .unmapped => 0

/-! ### Checks of a write: the first that fails decides the code (R120) -/

/-- The check of a legal command while idle: NO_KEY for ENC and DEC (R116), KEYLEN_MISMATCH for SCHED (R115), none for
the others (R74). -/
def Engine.issueCheck {p : Params} (e : Engine p) : Instr → ErrorCode
  | .nop => .noError
  | .keyclr => .noError
  | .sched => if e.keyCount = e.keyLen then .noError else .keylenMismatch
  | .enc => if e.keyValid then .noError else .noKey
  | .dec => if e.keyValid then .noError else .noKey
  | .rotl _ _ _ => .noError
  | .rotr _ _ _ => .noError
  | .rotli _ _ _ => .noError
  | .rotri _ _ _ => .noError
  | .mulmix _ _ => .noError

/-- CMD: BUSY, then ILLEGAL_CMD, then the command's own check (R74, R120). -/
def Engine.cmdCheck {p : Params} (e : Engine p) (v : BitVec p.WD) : ErrorCode :=
  if e.busy then .busy
  else match decode (v.setWidth 32) with
    | .error _ => .illegalCmd
    | .ok i => e.issueCheck i

/-- KEYLEN: BUSY, then KEYLEN_RANGE; all of v[31:0] is compared with B_MAX (R95, R119). -/
def Engine.keylenCheck {p : Params} (e : Engine p) (v : BitVec p.WD) : ErrorCode :=
  if e.busy then .busy
  else if (v.setWidth 32).toNat > p.B_MAX then .keylenRange
  else .noError

/-- KEYDATA: BUSY, then KEY_OVERFLOW (R96, R118). -/
def Engine.keydataCheck {p : Params} (e : Engine p) : ErrorCode :=
  if e.busy then .busy
  else if e.keyCount.toNat = p.B_MAX then .keyOverflow
  else .noError

/-- BLK: BUSY only (R49). -/
def Engine.blkCheck {p : Params} (e : Engine p) : ErrorCode :=
  if e.busy then .busy else .noError

/-- The error a write of `v` to index `idx` raises; `noError` where it is carried out (R113, R120). Writes to CTRL,
STATUS and ERROR, to read-only registers and to unmapped indices raise none (R23, R24, R50, R51, R122). -/
def Engine.writeCheck {p : Params} (e : Engine p) (idx : BitVec 12) (v : BitVec p.WD) : ErrorCode :=
  match Reg.ofIndex p idx with
  | .cmd => e.cmdCheck v
  | .keylen => e.keylenCheck v
  | .keydata => e.keydataCheck
  | .blk _ => e.blkCheck
  | .id => .noError
  | .ctrl => .noError
  | .status => .noError
  | .error => .noError
  | .errdata => .noError
  | .keycnt => .noError
  | .skey _ => .noError
  | .unmapped => .noError

/-! ### Effects of a write that is carried out -/

/-- CTRL: DIE from bit 0, EIE from bit 1 (R26, R50). -/
def Engine.writeCtrl {p : Params} (e : Engine p) (v : BitVec p.WD) : Engine p :=
  { e with die := v.getLsbD 0, eie := v.getLsbD 1 }

/-- STATUS: a 1 in bit 1 clears DONE, every other bit is ignored (R51). -/
def Engine.writeStatus {p : Params} (e : Engine p) (v : BitVec p.WD) : Engine p :=
  { e with done := e.done && !v.getLsbD 1 }

/-- CMD: the command is accepted (R74, R75). The decoder's other answer does not occur: its word was rejected. -/
def Engine.writeCmd {p : Params} (e : Engine p) (lat : Nat) (v : BitVec p.WD) : Engine p :=
  match decode (v.setWidth 32) with
  | .error _ => e
  | .ok i => e.accept (v.setWidth 32) i lat

/-- KEYLEN: LEN from v[7:0] (R95). -/
def Engine.writeKeylen {p : Params} (e : Engine p) (v : BitVec p.WD) : Engine p :=
  { e with keyLen := v.setWidth 8 }

/-- KEYDATA: v[7:0] appended to K, COUNT one more (R96). -/
def Engine.writeKeydata {p : Params} (e : Engine p) (v : BitVec p.WD) : Engine p :=
  { e with key := fileWrite e.key e.keyCount.toNat (v.setWidth 8), keyCount := e.keyCount + 1 }

/-- BLK[r]: trunc_W(v) (R49). -/
def Engine.writeBlk {p : Params} (e : Engine p) (r : BlkReg) (v : BitVec p.WD) : Engine p :=
  e.setBlk r (v.setWidth p.W)

/-- The effect of a write that is carried out; `lat` is the latency drawn for a command it issues. Writes to
read-only registers and to unmapped indices have none (R23, R24). -/
def Engine.writeEffect {p : Params} (e : Engine p) (lat : Nat) (idx : BitVec 12) (v : BitVec p.WD) : Engine p :=
  match Reg.ofIndex p idx with
  | .ctrl => e.writeCtrl v
  | .status => e.writeStatus v
  | .error => e.clearError
  | .cmd => e.writeCmd lat v
  | .keylen => e.writeKeylen v
  | .keydata => e.writeKeydata v
  | .blk r => e.writeBlk r v
  | .id => e
  | .errdata => e
  | .keycnt => e
  | .skey _ => e
  | .unmapped => e

/-- `RegWrite(idx, v)`: carried out, or rejected with its error recorded and nothing else changed (R112, R123). -/
def Engine.regWrite {p : Params} (e : Engine p) (lat : Nat) (idx : BitVec 12) (v : BitVec p.WD) : Engine p :=
  match e.writeCheck idx v with
  | .noError => e.writeEffect lat idx v
  | .illegalCmd => e.raiseError .illegalCmd idx v
  | .keylenMismatch => e.raiseError .keylenMismatch idx v
  | .noKey => e.raiseError .noKey idx v
  | .busy => e.raiseError .busy idx v
  | .keyOverflow => e.raiseError .keyOverflow idx v
  | .keylenRange => e.raiseError .keylenRange idx v

/-! ### Host steps -/

/-- The data a read of index `idx` returns: unspecified while rst_n = 0 (R134), unspecified for a volatile register
while busy (R81), else exact (R47). -/
def State.readData (s : State) (idx : BitVec 12) : BitVec s.params.WD :=
  if s.rstN then
    if s.eng.busy && (Reg.ofIndex s.params idx).volatile then
      freeRead s.params (Reg.ofIndex s.params idx).width s.draws
    else s.eng.regRead idx
  else freeRead s.params s.params.WD s.draws

/-- A host read: it changes no state of the engine (R45). -/
def State.hostRead (s : State) (idx : BitVec 12) : State :=
  { s with hRdata := some (s.readData idx), draws := s.draws + 1 }

/-- A host write: no effect while rst_n = 0 (R134). -/
def State.hostWrite (s : State) (idx : BitVec 12) (v : BitVec s.params.WD) : State :=
  { s with
    eng := if s.rstN then s.eng.regWrite (latency s.draws) idx v else s.eng
    hRdata := none
    draws := s.draws + 1 }

/-- One host step (R45). -/
def State.hostStep (s : State) (a : Access s.params) : State :=
  match a with
  | .read idx => s.hostRead idx
  | .write idx v => s.hostWrite idx v

/-- One pass of the host's WAIT loop (R73): read STATUS; end when bit 0 (BUSY) reads 0, else let the engine take a
step and loop (assumption 13). -/
def State.waitStep (s : State) : State :=
  let s' := s.hostRead 0x002
  if (s.readData 0x002).getLsbD 0 then { s' with inputs := .engine :: .waitIdle :: s'.inputs } else s'

end Sys2Proof.Machine
end

