-- ==== Sys2Proof/Machine/Bus.lean ====
section
/-! DEFINITION. BUS_BINDING (20_memory.md R46, R53, R54), and the ports of one clock cycle (R44) as
events. -/

namespace Sys2Proof.Machine

/-- Where the accesses stand on the bus. -/
def BusAccess.spans : BusAccess → List Span
  | .read spans => spans
  | .write beats => beats.map (·.span)

/-- The number the writes carry together, the first one's bits lowest. -/
def joinBeats : List WriteBeat → Nat
  | [] => 0
  | b :: rest => b.data.toNat + 2 ^ (8 * b.span.size) * joinBeats rest

/-- The access of register `idx` that a bus access stands for. -/
def BusAccess.access (p : Params) (idx : BitVec 12) : BusAccess → Access p
  | .read _ => .read idx
  | .write beats => .write idx (BitVec.ofNat p.WD (joinBeats beats))

/-- How many bytes the spans hold together. -/
def spanBytes (spans : List Span) : Nat := (spans.map (·.size)).sum

/-- The spans that lie whole in the lowest `n` bytes, when the first span holds the lowest bytes. -/
def spansBelow (n : Nat) : List Span → List Span
  | [] => []
  | x :: rest => if x.size ≤ n then x :: spansBelow (n - x.size) rest else []

/-- R53, of a register of `lane` bytes: a 64-bit register that is split has a cut at bit 32, and every access that
carries bits of [31:0] stands below every access that carries bits of [63:32]. -/
def lowHalfFirst (lane : Nat) (spans : List Span) : Bool :=
  let low := spansBelow 4 spans
  let high := spans.drop low.length
  decide (lane ≠ 8) || decide (spans.length = 1) ||
    (decide (spanBytes low = 4) && low.all fun x => high.all fun y => decide (x.offset + x.size ≤ y.offset))

/-- The index that spans on the bus stand for under a binding, for registers of `lane` = WD/8 bytes (R46). Default:
one access of WD bits, aligned to WD/8 bytes, register `idx` at byte offset `idx * lane` of a window of 4096 * lane
bytes. A platform's own: its first row of these spans, where they carry the whole register (R46, R54) with its low half
at the lower address (R53). -/
def boundIndex (lane : Nat) : BusBinding → List Span → Option (BitVec 12)
  | .default, [x] =>
    if x.size = lane ∧ x.offset % lane = 0 ∧ x.offset < 4096 * lane then some (BitVec.ofNat 12 (x.offset / lane))
    else none
  | .default, _ => none
  | .platform rows, spans =>
    if spanBytes spans = lane ∧ lowHalfFirst lane spans then
      (rows.find? fun r => decide (r.spans = spans)).map (·.idx)
    else none

/-- The host step a bus access becomes under the instance's binding: one access of one whole register (R45, R46). Any
other access is no host step (R54). -/
def BusAccess.bind (p : Params) (b : BusAccess) : Option (Access p) :=
  (boundIndex (p.WD / 8) p.binding b.spans).map fun idx => b.access p idx

/-- The two writes of a 64-bit register on a 32-bit bus whose binding splits it at `offset`: bits [31:0] at the lower
address (R53). -/
def splitRegister (offset : Nat) (v : BitVec 64) : List WriteBeat :=
  [⟨⟨offset, 4⟩, v.extractLsb' 0 32⟩, ⟨⟨offset + 4, 4⟩, v.extractLsb' 32 32⟩]

/-- The input ports of one clock cycle (R44). -/
structure Ports (p : Params) where
  rstN   : Bool
  hValid : Bool
  hWrite : Bool
  hIdx   : BitVec 12
  hWdata : BitVec p.WD
  deriving DecidableEq, Repr

/-- The order an implementation fixes for a host access and an engine step of one cycle (R127). -/
inductive CycleOrder where
  | hostFirst
  | engineFirst
  deriving DecidableEq, Repr

/-- The host access a cycle presents, if any (R44). -/
def Ports.access {p : Params} (q : Ports p) : List (Event p) :=
  if q.hValid then
    if q.hWrite then [.host (.write q.hIdx q.hWdata)] else [.host (.read q.hIdx)]
  else []

/-- One clock cycle's events: the level of rst_n first (R134), then the host access and the engine step, in either
order (R127). -/
def Ports.events {p : Params} (q : Ports p) : CycleOrder → List (Event p)
  | .hostFirst => (if q.rstN then .releaseReset else .assertReset) :: (q.access ++ [.engine])
  | .engineFirst => (if q.rstN then .releaseReset else .assertReset) :: .engine :: q.access

end Sys2Proof.Machine
end

