-- ==== Sys2Proof/Machine/Cipher.lean ====
section
/-! DEFINITION. The round functions, ENC and DEC (43_cipher.md R106 to R111). -/

namespace Sys2Proof.Machine

/-- f(x) = rotl(mulmix(x), LGW) (R106). -/
def mixTerm {w : Nat} (lg : Nat) (x : Word w) : Word w := rotl (mulmix x) lg

/-- Round `i` of Encrypt (R107): t and u from B and D at the start of the round, then the new A and C, then the
rotation of the quadruple. -/
def encRound {w t : Nat} (lg : Nat) (sk : Vector (Word w) t) (i : Nat) (x : Block w) : Block w :=
  let tt := mixTerm lg x.b
  let uu := mixTerm lg x.d
  let a := rotl (x.a ^^^ tt) uu.toNat + fileRead sk (2 * i)
  let c := rotl (x.c ^^^ uu) tt.toNat + fileRead sk (2 * i + 1)
  { a := x.b, b := c, c := x.d, d := a }

/-- Rounds 1 to `r`, in that order (R107). -/
def encRounds {w t : Nat} (lg : Nat) (sk : Vector (Word w) t) : Nat → Block w → Block w
  | 0, x => x
  | r + 1, x => encRound lg sk (r + 1) (encRounds lg sk r x)

/-- Encrypt with `r` rounds (R107): pre-whitening of B and D, the rounds, post-whitening of A and C. -/
def encrypt {w t : Nat} (lg r : Nat) (sk : Vector (Word w) t) (x : Block w) : Block w :=
  let y := encRounds lg sk r { x with b := x.b + fileRead sk 0, d := x.d + fileRead sk 1 }
  { y with a := y.a + fileRead sk (2 * r + 2), c := y.c + fileRead sk (2 * r + 3) }

/-- Round `i` of Decrypt (R108): the quadruple rotated back, u and t from D and B, then C and A. -/
def decRound {w t : Nat} (lg : Nat) (sk : Vector (Word w) t) (i : Nat) (x : Block w) : Block w :=
  let a := x.d
  let b := x.a
  let c := x.b
  let d := x.c
  let uu := mixTerm lg d
  let tt := mixTerm lg b
  { a := rotr (a - fileRead sk (2 * i)) uu.toNat ^^^ tt
    b := b
    c := rotr (c - fileRead sk (2 * i + 1)) tt.toNat ^^^ uu
    d := d }

/-- Rounds `r` down to 1, in that order (R108). -/
def decRounds {w t : Nat} (lg : Nat) (sk : Vector (Word w) t) : Nat → Block w → Block w
  | 0, x => x
  | r + 1, x => decRounds lg sk r (decRound lg sk (r + 1) x)

/-- Decrypt with `r` rounds (R108). -/
def decrypt {w t : Nat} (lg r : Nat) (sk : Vector (Word w) t) (x : Block w) : Block w :=
  let y := decRounds lg sk r
    { x with c := x.c - fileRead sk (2 * r + 3), a := x.a - fileRead sk (2 * r + 2) }
  { y with d := y.d - fileRead sk 1, b := y.b - fileRead sk 0 }

/-- ENC: the block in the block registers encrypted in place with S (R109). -/
def execEnc (s : State) : Host.Outcome State Fault Refusal :=
  .next (s.complete { s.eng with blk := encrypt s.params.LGW s.params.R s.eng.skey s.eng.blk })

/-- DEC: the block in the block registers decrypted in place with S (R110). -/
def execDec (s : State) : Host.Outcome State Fault Refusal :=
  .next (s.complete { s.eng with blk := decrypt s.params.LGW s.params.R s.eng.skey s.eng.blk })

end Sys2Proof.Machine
end

