-- ==== Sys2Proof/Machine/KeySchedule.lean ====
section
/-! DEFINITION. The magic constants, the key schedule, KEYCLR and SCHED (42_key_schedule.md R94 to R105). The source's
rolling accumulators A and B are `ka` and `kb` here. -/

namespace Sys2Proof.Machine

/-- P_W (R94): fixed for W = 32, the instance's own for W = 16 and W = 64. -/
def magicP : (wd : Width) → Word wd.bits
  | .w16 p _ => p
  | .w32 => 0xB7E15163#32
  | .w64 p _ => p

/-- Q_W (R94). -/
def magicQ : (wd : Width) → Word wd.bits
  | .w16 _ q => q
  | .w32 => 0x9E3779B9#32
  | .w64 _ q => q

/-- The default P_W and Q_W of a 16-bit instance (R94, from general knowledge; assumption 12). -/
def defaultWidth16 : Width := .w16 0xB7E1#16 0x9E37#16

/-- The default P_W and Q_W of a 64-bit instance (R94, from general knowledge; assumption 12). -/
def defaultWidth64 : Width := .w64 0xB7E151628AED2A6B#64 0x9E3779B97F4A7C15#64

/-- The key-word count c = max(1, ceil(b / U)) (R98). -/
def keyWords (u b : Nat) : Nat := max 1 ((b + u - 1) / u)

/-- Kb(n): key byte `n` where `n < b`, else 0 (R99). -/
def keyByte {m : Nat} (k : Vector Byte m) (b n : Nat) : Byte :=
  if n < b then fileRead k n else 0

/-- L[j] as loaded: chunk `j` of U key bytes, little-endian (R99). -/
def loadWord {m : Nat} (w u : Nat) (k : Vector Byte m) (b j : Nat) : Word w :=
  BitVec.ofNat w (leValue (fun i => keyByte k b (j * u + i)) u)

/-- L loaded: words 0 to c-1 from the key, the words not used 0 (R99). -/
def loadWords {m : Nat} (w u n : Nat) (k : Vector Byte m) (b : Nat) : Vector (Word w) n :=
  Vector.ofFn fun j : Fin n => if j.val < keyWords u b then loadWord w u k b j.val else 0

/-- S[i] before mixing: S[0] = P, S[i] = S[i-1] + Q (R100). -/
def initWord {w : Nat} (pw qw : Word w) : Nat → Word w
  | 0 => pw
  | i + 1 => initWord pw qw i + qw

/-- The table before mixing (R100). -/
def initTable {w : Nat} (pw qw : Word w) (t : Nat) : Vector (Word w) t :=
  Vector.ofFn fun i : Fin t => initWord pw qw i.val

/-- What the mixing loop works on: both files, the accumulators and the two indices (R101). -/
structure Mixer (w t n : Nat) where
  s  : Vector (Word w) t
  l  : Vector (Word w) n
  ka : Word w
  kb : Word w
  i  : Nat
  j  : Nat
  deriving DecidableEq, Repr

/-- One iteration of the mixing loop (R101). The second line uses the new `ka`. -/
def mixStep {w t n : Nat} (c : Nat) (m : Mixer w t n) : Mixer w t n :=
  let ka := rotl (fileRead m.s m.i + m.ka + m.kb) 3
  let kb := rotl (fileRead m.l m.j + ka + m.kb) (ka + m.kb).toNat
  { s := fileWrite m.s m.i ka
    l := fileWrite m.l m.j kb
    ka := ka
    kb := kb
    i := (m.i + 1) % t
    j := (m.j + 1) % c }

/-- `v` iterations of the mixing loop (R101). -/
def mixLoop {w t n : Nat} (c : Nat) : Nat → Mixer w t n → Mixer w t n
  | 0, m => m
  | v + 1, m => mixLoop c v (mixStep c m)

/-- KeySchedule(K, b), the round-key table (R102): load L (R98, R99), initialize S (R100), then v = 3 * max(c, T)
iterations (R101). L is discarded. -/
def keySchedule (p : Params) (k : Vector Byte p.B_MAX) (b : Nat) : Vector (Word p.W) p.T :=
  let c := keyWords p.U b
  let start : Mixer p.W p.T p.C_MAX :=
    { s := initTable (magicP p.width) (magicQ p.width) p.T
      l := loadWords p.W p.U p.C_MAX k b
      ka := 0
      kb := 0
      i := 0
      j := 0 }
  (mixLoop c (3 * max c p.T) start).s

/-- KEYCLR: K to zeros, COUNT to 0 (R97). -/
def execKeyclr (s : State) : Host.Outcome State Fault Refusal :=
  .next (s.complete { s.eng with key := fileZero _ 8, keyCount := 0 })

/-- SCHED at completion: S from K and KEYLEN.LEN; K, L and COUNT cleared; KEY_VALID set (R103). L is loaded, mixed and
cleared within this one atomic step (R78), so what State's L holds between steps is 0 (assumption 15). -/
def execSched (s : State) : Host.Outcome State Fault Refusal :=
  .next (s.complete
    { s.eng with
      skey := keySchedule s.params s.eng.key s.eng.keyLen.toNat
      key := fileZero _ 8
      lwords := fileZero _ _
      keyCount := 0
      keyValid := true })

end Sys2Proof.Machine
end

