-- ==== Sys2Proof/Machine/Primitive.lean ====
section
/-! DEFINITION. The primitive commands: ROTL, ROTR, ROTLI, ROTRI and MULMIX (41_rotate_mix.md R89 to R93). Every
source is read before the destination is written (R64). -/

namespace Sys2Proof.Machine

/-- ROTL rd, rs1, rs2: `BLK[rd] <- rotl(BLK[rs1], BLK[rs2])` (R89). -/
def execRotl (rd rs1 rs2 : BlkReg) (s : State) : Host.Outcome State Fault Refusal :=
  .next (s.complete (s.eng.setBlk rd (rotl (s.eng.blk.get rs1) (s.eng.blk.get rs2).toNat)))

/-- ROTR rd, rs1, rs2: `BLK[rd] <- rotr(BLK[rs1], BLK[rs2])` (R90). -/
def execRotr (rd rs1 rs2 : BlkReg) (s : State) : Host.Outcome State Fault Refusal :=
  .next (s.complete (s.eng.setBlk rd (rotr (s.eng.blk.get rs1) (s.eng.blk.get rs2).toNat)))

/-- ROTLI rd, rs1, imm: `BLK[rd] <- rotl(BLK[rs1], imm)` (R91). -/
def execRotli (rd rs1 : BlkReg) (imm : Nat) (s : State) : Host.Outcome State Fault Refusal :=
  .next (s.complete (s.eng.setBlk rd (rotl (s.eng.blk.get rs1) imm)))

/-- ROTRI rd, rs1, imm: `BLK[rd] <- rotr(BLK[rs1], imm)` (R92). -/
def execRotri (rd rs1 : BlkReg) (imm : Nat) (s : State) : Host.Outcome State Fault Refusal :=
  .next (s.complete (s.eng.setBlk rd (rotr (s.eng.blk.get rs1) imm)))

/-- MULMIX rd, rs1: `BLK[rd] <- mulmix(BLK[rs1])` (R93). -/
def execMulmix (rd rs1 : BlkReg) (s : State) : Host.Outcome State Fault Refusal :=
  .next (s.complete (s.eng.setBlk rd (mulmix (s.eng.blk.get rs1))))

end Sys2Proof.Machine
end

