-- ==== Sys2Proof/Machine/Protocol.lean ====
section
/-! DEFINITION. NOP (40_command_protocol.md R83). Its issue checks and acceptance are those every command shares. -/

namespace Sys2Proof.Machine

/-- NOP: no effect of its own (R83). -/
def execNop (s : State) : Host.Outcome State Fault Refusal :=
  .next (s.complete s.eng)

end Sys2Proof.Machine
end

