-- ==== Sys2Proof/Machine/Dispatch.lean ====
section
/-! DEFINITION. One arm per command: `exec i s` is Complete(i) of R78, the command's effect at completion and the end
of its busy period. The issue checks (R74) and the acceptance (R75) are the host's write of CMD, in HostPort.lean. -/

namespace Sys2Proof.Machine

def exec (i : Instr) (s : State) : Host.Outcome State Fault Refusal :=
  match i with
  | .nop => Sys2Proof.Machine.execNop s
  | .keyclr => Sys2Proof.Machine.execKeyclr s
  | .sched => Sys2Proof.Machine.execSched s
  | .enc => Sys2Proof.Machine.execEnc s
  | .dec => Sys2Proof.Machine.execDec s
  | .rotl rd rs1 rs2 => Sys2Proof.Machine.execRotl rd rs1 rs2 s
  | .rotr rd rs1 rs2 => Sys2Proof.Machine.execRotr rd rs1 rs2 s
  | .rotli rd rs1 imm => Sys2Proof.Machine.execRotli rd rs1 imm s
  | .rotri rd rs1 imm => Sys2Proof.Machine.execRotri rd rs1 imm s
  | .mulmix rd rs1 => Sys2Proof.Machine.execMulmix rd rs1 s

end Sys2Proof.Machine
end

