-- ==== Sys2Proof/Machine/Agents.lean ====
section
/-! DEFINITION. What the engine does at an engine step (40_command_protocol.md R76 to R78), and what each event
does. -/

namespace Sys2Proof.Machine

/-- Complete(PENDING) (R78). A PENDING that is no command is never latched (R74): the model stops there
(assumption 10). -/
def State.completePending (s : State) (pending : BitVec 32) : Host.Outcome State Fault Refusal :=
  match decode pending with
  | .ok i => exec i s
  | .error _ => .fault .pendingIllegal

/-- An engine step: nothing while rst_n = 0 (R134) or PHASE = IDLE (R76); else REMAIN one less, and completion when
it is 0 (R77). -/
def State.engineStep (s : State) : Host.Outcome State Fault Refusal :=
  if s.rstN then
    match s.eng.phase with
    | .idle => .next s
    | .run pending remain =>
      if remain - 1 = 0 then s.completePending pending
      else .next { s with eng := { s.eng with phase := .run pending (remain - 1) } }
  else .next s

/-- What one event does to the state; the event is no longer in the state's list. -/
def State.handle (s : State) (ev : Event s.params) : Host.Outcome State Fault Refusal :=
  match ev with
  | .engine => s.engineStep
  | .host a => .next (s.hostStep a)
  | .bus b =>
    match b.bind s.params with
    | some a => .next (s.hostStep a)
    | none => .refused .unboundBusAccess
  | .assertReset => .next s.assertReset
  | .releaseReset => .next s.releaseReset
  | .waitIdle => .next s.waitStep

end Sys2Proof.Machine
end

