-- ==== Sys2Proof/Machine/Step.lean ====
section
/-! DEFINITION. One step of the machine: the next event of the total order of host steps and engine steps
(20_memory.md R57). -/

namespace Sys2Proof.Machine

/-- One step: the next event, or, where none is listed, an engine step (the clock goes on and the host presents
nothing; assumption 16). -/
def step (s : State) : Host.Outcome State Fault Refusal :=
  match s.inputs with
  | [] => s.engineStep
  | ev :: rest => State.handle { s with inputs := rest } ev

/-- `s` with the command word `w` where the next step runs it: latched in PENDING at its last engine step, which is
the next event. The engine fetches nothing (R36, R56), so this stands for the host's issue of the command
(assumption 11). -/
def State.withFetchWord (s : State) (nbits w : Nat) : State :=
  s.withPending (BitVec.ofNat 32 (w % 2 ^ nbits))

end Sys2Proof.Machine
end

