-- ==== Sys2Proof/Machine/ByteOrder.lean ====
section
/-! DEFINITION. The host's conversion between a block and its 4U bytes (20_memory.md R52). -/

namespace Sys2Proof.Machine

/-- Word `n` of a byte string: the sum over k in 0..U-1 of X[n*U + k] * 2^(8k) (R52). -/
def wordOfBytes (w : Nat) (x : Nat → Byte) (n : Nat) : Word w :=
  BitVec.ofNat w (leValue (fun k => x (n * (w / 8) + k)) (w / 8))

/-- The block of a byte string, word 0 first (R52). -/
def blockOfBytes (w : Nat) (x : Nat → Byte) : Block w :=
  ⟨wordOfBytes w x 0, wordOfBytes w x 1, wordOfBytes w x 2, wordOfBytes w x 3⟩

/-- Block word `n` as block register (R34): word 0 is A. -/
def blkOfIndex : Nat → BlkReg
  | 0 => .A
  | 1 => .B
  | 2 => .C
  | _ => .D

/-- Byte `i` of a block's byte string: X[n*U + k] = BLK[n][8k+7 : 8k] (R52). -/
def byteOfBlock {w : Nat} (b : Block w) (i : Nat) : Byte :=
  byteOf (b.get (blkOfIndex (i / (w / 8)))) (i % (w / 8))

end Sys2Proof.Machine
end

