-- ==== Sys2Proof/Machine/Script.lean ====
section
/-! DEFINITION. Host scripts and pseudo-commands (30_encoding.md R72, R73), as the events they stand for. -/

namespace Sys2Proof.Machine

/-- A register as a script names it: by its name in R22, or by a 12-bit index (R72). -/
inductive RegName where
  | id | ctrl | status | error | errdata | cmd | keylen | keydata | keycnt
  | blk (r : BlkReg)
  | skey (i : Nat)
  | index (idx : BitVec 12)
  deriving DecidableEq, Repr

/-- The index of a named register (R22). -/
def RegName.toIndex : RegName → BitVec 12
  | .id => 0x000
  | .ctrl => 0x001
  | .status => 0x002
  | .error => 0x003
  | .errdata => 0x004
  | .cmd => 0x005
  | .keylen => 0x006
  | .keydata => 0x007
  | .keycnt => 0x008
  | .blk .A => 0x010
  | .blk .B => 0x011
  | .blk .C => 0x012
  | .blk .D => 0x013
  | .skey i => 0x100 + BitVec.ofNat 12 i
  | .index idx => idx

/-- One line of a host script (R72), or a pseudo-command (R73). -/
inductive ScriptLine (p : Params) where
  /-- `WR reg, value` -/
  | wr (r : RegName) (v : BitVec p.WD)
  /-- `RD reg` -/
  | rd (r : RegName)
  /-- `RD reg -> value`: the read, and the value the rules give -/
  | rdIs (r : RegName) (v : BitVec p.WD)
  /-- `CMD command` -/
  | cmd (i : Instr)
  | wait
  | run (i : Instr)
  | fmix (rd rs : BlkReg)
  | loadKey (bytes : List Byte)
  | clrErr
  | ackDone
  deriving DecidableEq, Repr

/-- `WR reg, value`: one host write (R72). -/
def wrEvent (p : Params) (r : RegName) (v : BitVec p.WD) : Event p := .host (.write r.toIndex v)

/-- `CMD command`: a write of its encoding to CMD (R72). -/
def cmdEvent (p : Params) (i : Instr) : Event p := wrEvent p .cmd ((encode i).setWidth p.WD)

/-- `RUN command`: CMD, then WAIT (R73). -/
def runEvents (p : Params) (i : Instr) : List (Event p) := [cmdEvent p i, .waitIdle]

/-- The events a line stands for (R72, R73). -/
def ScriptLine.events {p : Params} : ScriptLine p → List (Event p)
  | .wr r v => [wrEvent p r v]
  | .rd r => [.host (.read r.toIndex)]
  | .rdIs r _ => [.host (.read r.toIndex)]
  | .cmd i => [cmdEvent p i]
  | .wait => [.waitIdle]
  | .run i => runEvents p i
  | .fmix dst src => runEvents p (.mulmix dst src) ++ runEvents p (.rotli dst dst p.LGW)
  | .loadKey bytes =>
    runEvents p .keyclr ++ [wrEvent p .keylen (BitVec.ofNat p.WD bytes.length)] ++
      bytes.map fun x => wrEvent p .keydata (x.setWidth p.WD)
  | .clrErr => [wrEvent p .error 0]
  | .ackDone => [wrEvent p .status 0x2]

/-- A script's events, line after line (R72). -/
def scriptEvents {p : Params} (lines : List (ScriptLine p)) : List (Event p) :=
  lines.flatMap ScriptLine.events

end Sys2Proof.Machine
end

