-- ==== Sys2Proof/Safety.lean ====
section
/-! DEFINITION. What counts as a safe run, and the invariant that makes a run safe. -/

namespace Sys2Proof

open Sys2Proof.Machine

/-- A command that may stand in PENDING: one that passed its issue checks, with what acceptance and gating keep true
until it completes (R74, R75, R80): for SCHED the counts agree and KEY_VALID is 0, for ENC and DEC it is 1. -/
def PendingOk {p : Params} (e : Engine p) : Instr → Prop
  | .nop => True
  | .keyclr => True
  | .sched => e.keyCount = e.keyLen ∧ e.keyValid = false
  | .enc => e.keyValid = true
  | .dec => e.keyValid = true
  | .rotl _ _ _ => True
  | .rotr _ _ _ => True
  | .rotli _ _ _ => True
  | .rotri _ _ _ => True
  | .mulmix _ _ => True

/-- The invariant of the engine. -/
structure EngineInv {p : Params} (e : Engine p) : Prop where
  /-- LEN <= B_MAX (R31). -/
  keyLen_le : e.keyLen.toNat ≤ p.B_MAX
  /-- COUNT <= B_MAX (R33). -/
  keyCount_le : e.keyCount.toNat ≤ p.B_MAX
  /-- K[n] = 0 for COUNT <= n < B_MAX (R42). -/
  key_tail : ∀ n, e.keyCount.toNat ≤ n → n < p.B_MAX → fileRead e.key n = 0
  /-- With no error recorded, MORE, IDX and ERRDATA are 0 (R121, R122). -/
  error_clear : e.errCode = .noError → e.errMore = false ∧ e.errIdx = 0 ∧ e.errData = 0
  /-- L holds no key material between steps (R40, R103). -/
  lwords_zero : ∀ j, fileRead e.lwords j = 0
  /-- While PHASE = RUN: PENDING is a command that passed its checks, REMAIN is at least 1 and DONE is 0
  (R41, R74, R75, R77). -/
  running : ∀ w n, e.phase = .run w n → e.done = false ∧ 1 ≤ n ∧ ∃ i, decode w = .ok i ∧ PendingOk e i

/-- The invariant of the machine: the engine's, and the reset state for as long as rst_n = 0 (R134). -/
structure Inv (s : State) : Prop where
  engine : EngineInv s.eng
  in_reset : s.rstN = false → s.eng = Engine.reset s.params

/-- No bus access that is not one whole-register access stands in the list of events (R54). -/
def busBound (s : State) : Prop :=
  ∀ b, Event.bus b ∈ s.inputs → b.bind s.params ≠ none

/-- A step that neither faults nor is refused. -/
def SafeStep (s : State) : Prop := ∃ t, step s = .next t

/-- Round-key word `i` as a number, for statements over states of any instance. -/
def roundKey (s : State) (i : Nat) : Nat := (fileRead s.eng.skey i).toNat

/-- Key byte `n` as a number. -/
def keyBufferByte (s : State) (n : Nat) : Nat := (fileRead s.eng.key n).toNat

/-- Block register `r` as a number. -/
def blockWord (s : State) (r : BlkReg) : Nat := (s.eng.blk.get r).toNat

end Sys2Proof
end

