-- ==== Sys2Proof/Certificates/Slice0/Obligations.lean ====
section
/-! DEFINITION. The statements for the provers, from the spec's numbered rules. -/

open Sys2Proof Sys2Proof.Machine

/-! ### Words the statements share -/

namespace Sys2Proof.Claims

/-- The next event is an engine step: listed, or taken because none is listed (assumption 16). -/
def engineIsNext (s : State) : Prop := s.inputs = [] ∨ s.inputs.head? = some .engine

/-- The next step completes command `i`: reset deasserted, an engine step next (listed, or by assumption 16 with none
listed), PHASE = RUN with one step left (or with REMAIN = 0, which no rule produces: assumption 2), and `i` in
PENDING. -/
def completes (s : State) (i : Instr) : Prop :=
  s.rstN = true ∧ engineIsNext s ∧ ∃ w n, s.eng.phase = .run w n ∧ n ≤ 1 ∧ decode w = .ok i

/-- The next step asserts reset. -/
def resets (s : State) : Prop := s.inputs.head? = some .assertReset

/-- The next step is a host write of `v` to index `idx`, by the register port or by a bus access bound to it, with
reset deasserted. -/
def writes (s : State) (idx : BitVec 12) (v : BitVec s.params.WD) : Prop :=
  s.rstN = true ∧
    (s.inputs.head? = some (.host (.write idx v)) ∨
     ∃ b, s.inputs.head? = some (.bus b) ∧ b.bind s.params = some (.write idx v))

/-- The next step accepts command `i`: a host write of its word to CMD that passes every check of R74. -/
def accepts (s : State) (i : Instr) : Prop :=
  ∃ v, writes s 0x005#12 v ∧ s.eng.busy = false ∧ decode (v.setWidth 32) = .ok i ∧ s.eng.issueCheck i = .noError

/-- `e'` is `e` but for the block registers and the end of the busy period: every other register, special register,
error field, key field and file is unchanged. -/
def onlyBlock {p : Params} (e e' : Engine p) : Prop :=
  e' = { e with blk := e'.blk, done := true, phase := .idle }

/-- A command whose only issue checks are BUSY and ILLEGAL_CMD: its word is rejected with BUSY while busy, and
accepted while idle, whatever error is recorded (R74, R75). -/
def issuesUnchecked (i : Instr) : Prop :=
  ∀ (p : Params) (e : Engine p) (lat : Nat) (v : BitVec p.WD), v.setWidth 32 = encode i →
    (e.busy = true → e.regWrite lat 0x005#12 v = e.raiseError .busy 0x005#12 v) ∧
    (e.busy = false → e.regWrite lat 0x005#12 v = { e with phase := .run (encode i) lat, done := false })

/-- ENC and DEC: as above, and NO_KEY where KEY_VALID = 0 (R74). -/
def issuesWithKey (i : Instr) : Prop :=
  ∀ (p : Params) (e : Engine p) (lat : Nat) (v : BitVec p.WD), v.setWidth 32 = encode i →
    (e.busy = true → e.regWrite lat 0x005#12 v = e.raiseError .busy 0x005#12 v) ∧
    (e.busy = false → e.keyValid = false → e.regWrite lat 0x005#12 v = e.raiseError .noKey 0x005#12 v) ∧
    (e.busy = false → e.keyValid = true →
      e.regWrite lat 0x005#12 v = { e with phase := .run (encode i) lat, done := false })

/-- A word with opcode `op` and a bit of `unused` set is illegal (R68, R69), and a write of it to CMD while idle is
rejected with ILLEGAL_CMD (R114). -/
def illegalWith (op unused : BitVec 32) : Prop :=
  ∀ w : BitVec 32, w &&& 0xF#32 = op → w &&& unused ≠ 0#32 →
    (∃ r, decode w = .error r) ∧
    ∀ (p : Params) (e : Engine p) (lat : Nat) (v : BitVec p.WD), v.setWidth 32 = w → e.busy = false →
      e.regWrite lat 0x005#12 v = e.raiseError .illegalCmd 0x005#12 v

/-- A block register's number (R64). -/
def regNum : BlkReg → Nat
  | .A => 0
  | .B => 1
  | .C => 2
  | .D => 3

/-- Register field `r` of a word at bit `k` (R62, R64). -/
def fieldIs (w : BitVec 32) (k : Nat) (r : BlkReg) : Prop := w.toNat / 2 ^ k % 4 = regNum r

/-! The rules' own arithmetic, on naturals: the text of R85, R86, R101, R106, R107 and R108 with every operation
reduced modulo 2^W. -/

/-- R85. -/
def rotlN (w x n : Nat) : Nat :=
  if n % w = 0 then x else ((x <<< (n % w)) ||| (x >>> (w - n % w))) % 2 ^ w

/-- R86. -/
def rotrN (w x n : Nat) : Nat :=
  if n % w = 0 then x else ((x >>> (n % w)) ||| (x <<< (w - n % w))) % 2 ^ w

/-- R106: f(x). -/
def mixN (w lg x : Nat) : Nat := rotlN w ((x * (2 * x + 1)) % 2 ^ w) lg

/-- Four words as numbers. -/
abbrev Quad := Nat × Nat × Nat × Nat

/-- A block as four numbers. -/
def quadOf {w : Nat} (b : Block w) : Quad := (b.a.toNat, b.b.toNat, b.c.toNat, b.d.toNat)

/-- R107, the body of the loop. -/
def encRoundN (w lg : Nat) (sk : Nat → Nat) (x : Quad) (i : Nat) : Quad :=
  let (a, b, c, d) := x
  let tt := mixN w lg b
  let uu := mixN w lg d
  let a' := (rotlN w (a ^^^ tt) uu + sk (2 * i)) % 2 ^ w
  let c' := (rotlN w (c ^^^ uu) tt + sk (2 * i + 1)) % 2 ^ w
  (b, c', d, a')

/-- R107: Encrypt, the rounds i = 1 .. R in that order. -/
def encryptN (w lg r : Nat) (sk : Nat → Nat) (x : Quad) : Quad :=
  let (a, b, c, d) := x
  let (a, b, c, d) :=
    ((List.range r).map (· + 1)).foldl (encRoundN w lg sk) (a, (b + sk 0) % 2 ^ w, c, (d + sk 1) % 2 ^ w)
  ((a + sk (2 * r + 2)) % 2 ^ w, b, (c + sk (2 * r + 3)) % 2 ^ w, d)

/-- A difference modulo 2^W (R16). -/
def subN (w x y : Nat) : Nat := (x + (2 ^ w - y % 2 ^ w)) % 2 ^ w

/-- R108, the body of the loop. -/
def decRoundN (w lg : Nat) (sk : Nat → Nat) (x : Quad) (i : Nat) : Quad :=
  let (b, c, d, a) := x
  let uu := mixN w lg d
  let tt := mixN w lg b
  let c' := rotrN w (subN w c (sk (2 * i + 1))) tt ^^^ uu
  let a' := rotrN w (subN w a (sk (2 * i))) uu ^^^ tt
  (a', b, c', d)

/-- R108: Decrypt, the rounds i = R down to 1. -/
def decryptN (w lg r : Nat) (sk : Nat → Nat) (x : Quad) : Quad :=
  let (a, b, c, d) := x
  let (a, b, c, d) :=
    ((List.range r).map (· + 1)).reverse.foldl (decRoundN w lg sk)
      (subN w a (sk (2 * r + 2)), b, subN w c (sk (2 * r + 3)), d)
  (a, subN w b (sk 0), c, subN w d (sk 1))

/-- What R101's loop works on. -/
structure MixN where
  s  : Nat → Nat
  l  : Nat → Nat
  ka : Nat
  kb : Nat
  i  : Nat
  j  : Nat

/-- R101, the body of the loop. -/
def mixStepN (w t c : Nat) (m : MixN) : MixN :=
  let ka := rotlN w ((m.s m.i + m.ka + m.kb) % 2 ^ w) 3
  let kb := rotlN w ((m.l m.j + ka + m.kb) % 2 ^ w) ((ka + m.kb) % 2 ^ w)
  { s := fun n => if n = m.i then ka else m.s n
    l := fun n => if n = m.j then kb else m.l n
    ka := ka
    kb := kb
    i := (m.i + 1) % t
    j := (m.j + 1) % c }

/-- R102: KeySchedule(K, b), word by word: R98, R99, R100 and then R101's v iterations. -/
def keyScheduleN (p : Params) (k : Nat → Nat) (b : Nat) : Nat → Nat :=
  let c := max 1 ((b + p.U - 1) / p.U)
  let start : MixN :=
    { s := fun i => ((magicP p.width).toNat + i * (magicQ p.width).toNat) % 2 ^ p.W
      l := fun j => ∑ i ∈ Finset.range p.U, (if j * p.U + i < b then k (j * p.U + i) else 0) * 2 ^ (8 * i)
      ka := 0
      kb := 0
      i := 0
      j := 0 }
  ((mixStepN p.W p.T c)^[3 * max c p.T] start).s

/-- The two states are the same but for what the key buffer holds. -/
def sameButKey (s s' : State) : Prop :=
  ∃ k : Vector Byte s.params.B_MAX, s' = { s with eng := { s.eng with key := k } }

end Sys2Proof.Claims

open Sys2Proof.Claims

/-! ### Encoding -/

/-- Words written out from V-ENCD-1 and R71 decode to the commands they stand for. -/
def Obligations.SpecWordsDecode : Prop :=
  decode 0x00000000#32 = .ok .nop ∧ decode 0x00000001#32 = .ok .keyclr ∧ decode 0x00000002#32 = .ok .sched ∧
  decode 0x00000003#32 = .ok .enc ∧ decode 0x00000004#32 = .ok .dec ∧
  decode 0x00000125#32 = .ok (.rotl .C .A .B) ∧ decode 0x00000136#32 = .ok (.rotr .D .A .B) ∧
  decode 0x00001417#32 = .ok (.rotli .B .A 5) ∧ decode 0x000080E8#32 = .ok (.rotri .C .D 32) ∧
  decode 0x000000B9#32 = .ok (.mulmix .D .C)

/-- Every command with an immediate in range is read back from its word, with every operand. -/
def Obligations.DecodeEncodeRoundTrip : Prop :=
  ∀ i : Instr, i.wellFormed = true → decode (encode i) = .ok i

/-- A word that decodes is the word of exactly that command, and the command's immediate is in range: no bit of a
legal word is dropped. -/
def Obligations.LegalWordsEncodeBack : Prop :=
  ∀ (w : BitVec 32) (i : Instr), decode w = .ok i → i.wellFormed = true ∧ encode i = w

/-- R67, with R62 to R65: for each row of the opcode map, the words `x` with `(x and mask) = match` are exactly those
that decode to the row's command, the operands being the word's fields. -/
def Obligations.OpcodeMapDecides : Prop :=
  ∀ x : BitVec 32,
    (x &&& 0xFFFFFFFF = 0x00000000 ↔ decode x = .ok .nop) ∧
    (x &&& 0xFFFFFFFF = 0x00000001 ↔ decode x = .ok .keyclr) ∧
    (x &&& 0xFFFFFFFF = 0x00000002 ↔ decode x = .ok .sched) ∧
    (x &&& 0xFFFFFFFF = 0x00000003 ↔ decode x = .ok .enc) ∧
    (x &&& 0xFFFFFFFF = 0x00000004 ↔ decode x = .ok .dec) ∧
    (x &&& 0xFFFFFC0F = 0x00000005 ↔ ∃ rd rs1 rs2, decode x = .ok (.rotl rd rs1 rs2) ∧
      fieldIs x 4 rd ∧ fieldIs x 6 rs1 ∧ fieldIs x 8 rs2) ∧
    (x &&& 0xFFFFFC0F = 0x00000006 ↔ ∃ rd rs1 rs2, decode x = .ok (.rotr rd rs1 rs2) ∧
      fieldIs x 4 rd ∧ fieldIs x 6 rs1 ∧ fieldIs x 8 rs2) ∧
    (x &&& 0xFFFF030F = 0x00000007 ↔ ∃ rd rs1 imm, decode x = .ok (.rotli rd rs1 imm) ∧
      fieldIs x 4 rd ∧ fieldIs x 6 rs1 ∧ imm = x.toNat / 2 ^ 10 % 64) ∧
    (x &&& 0xFFFF030F = 0x00000008 ↔ ∃ rd rs1 imm, decode x = .ok (.rotri rd rs1 imm) ∧
      fieldIs x 4 rd ∧ fieldIs x 6 rs1 ∧ imm = x.toNat / 2 ^ 10 % 64) ∧
    (x &&& 0xFFFFFF0F = 0x00000009 ↔ ∃ rd rs1, decode x = .ok (.mulmix rd rs1) ∧
      fieldIs x 4 rd ∧ fieldIs x 6 rs1)

/-- R66, R68, R69, R114: which words are illegal, in plain numbers of the word's bits; and what a write of one to CMD
does while idle: ILLEGAL_CMD (code 1) is recorded and nothing else changes. -/
def Obligations.IllegalWordsAreRejected : Prop :=
  (∀ w : BitVec 32, (∃ r, decode w = .error r) ↔
    let n := w.toNat
    n / 2 ^ 16 ≠ 0 ∨ 10 ≤ n % 16 ∨ (n % 16 ≤ 4 ∧ n / 2 ^ 4 % 2 ^ 12 ≠ 0) ∨
    ((n % 16 = 5 ∨ n % 16 = 6) ∧ n / 2 ^ 10 % 2 ^ 6 ≠ 0) ∨
    ((n % 16 = 7 ∨ n % 16 = 8) ∧ n / 2 ^ 8 % 2 ^ 2 ≠ 0) ∨
    (n % 16 = 9 ∧ n / 2 ^ 8 % 2 ^ 8 ≠ 0)) ∧
  (∀ (p : Params) (e : Engine p) (lat : Nat) (v : BitVec p.WD), e.busy = false →
    (∃ r, decode (v.setWidth 32) = .error r) →
    let e' := e.regWrite lat 0x005#12 v
    e' = e.raiseError .illegalCmd 0x005#12 v ∧
    e' = { e with errCode := e'.errCode, errMore := e'.errMore, errIdx := e'.errIdx, errData := e'.errData }) ∧
  ErrorCode.illegalCmd.toBits.toNat = 1

/-! ### The datapaths -/

/-- R85: `rotl`, as the rule's arithmetic on naturals. -/
def Obligations.RotateLeftFormula : Prop :=
  ∀ (w : Nat) (x : Word w) (n : Nat),
    (rotl x n).toNat = rotlN w x.toNat n

/-- R86: `rotr`, as the rule's arithmetic on naturals. -/
def Obligations.RotateRightFormula : Prop :=
  ∀ (w : Nat) (x : Word w) (n : Nat),
    (rotr x n).toNat = rotrN w x.toNat n

/-- R87: the four laws of the rotations, for every width. -/
def Obligations.RotationLaws : Prop :=
  ∀ (w : Nat) (x : Word w) (n : Nat),
    rotr (rotl x n) n = x ∧ rotl (rotr x n) n = x ∧ rotl x n = rotl x (n % w) ∧
    rotl x n = rotr x ((w - n % w) % w)

/-- R88: the multiply-mix as the rule's arithmetic on naturals, and its form with both steps reduced. -/
def Obligations.MultiplyMixFormula : Prop :=
  ∀ (w : Nat) (x : Word w),
    (mulmix x).toNat = (x.toNat * (2 * x.toNat + 1)) % 2 ^ w ∧
    (mulmix x).toNat = (x.toNat * ((2 * x.toNat % 2 ^ w + 1) % 2 ^ w)) % 2 ^ w

/-- R111: Decrypt undoes Encrypt and Encrypt undoes Decrypt for every table and block, so Encrypt is a bijection; and
in the engine ENC followed by DEC restores the block registers. -/
def Obligations.EncryptDecryptInverse : Prop :=
  (∀ (w t lg r : Nat) (sk : Vector (Word w) t) (x : Block w),
    decrypt lg r sk (encrypt lg r sk x) = x ∧ encrypt lg r sk (decrypt lg r sk x) = x) ∧
  (∀ (w t lg r : Nat) (sk : Vector (Word w) t), Function.Bijective (encrypt lg r sk)) ∧
  (∀ s : State, ∃ e₁ e₂ : Engine s.params,
    exec .enc s = .next { s with eng := e₁ } ∧ exec .dec { s with eng := e₁ } = .next { s with eng := e₂ } ∧
    e₂.blk = s.eng.blk)

/-- R106 to R108: the mixing term, Encrypt and Decrypt are the rules' own algorithms on naturals, for every width, round
count, table and block. -/
def Obligations.CipherFollowsTheRules : Prop :=
  ∀ (w t lg r : Nat) (sk : Vector (Word w) t) (x : Block w),
    (mixTerm lg x.b).toNat = mixN w lg x.b.toNat ∧
    quadOf (encrypt lg r sk x) = encryptN w lg r (fun i => (fileRead sk i).toNat) (quadOf x) ∧
    quadOf (decrypt lg r sk x) = decryptN w lg r (fun i => (fileRead sk i).toNat) (quadOf x)

/-! ### The key schedule -/

/-- R98: the key-word count: 1 for the empty key, else the least count whose chunks hold every key byte; never above
C_MAX. -/
def Obligations.KeyWordCount : Prop :=
  ∀ (p : Params) (b : Nat), b ≤ p.B_MAX →
    keyWords p.U b = max 1 ((b + p.U - 1) / p.U) ∧ keyWords p.U b ≤ p.C_MAX ∧
    (b = 0 → keyWords p.U b = 1) ∧
    (0 < b → (keyWords p.U b - 1) * p.U < b ∧ b ≤ keyWords p.U b * p.U)

/-- R99: key word j, as loaded, is the little-endian sum of key bytes j*U .. j*U + U - 1, those from b on taken as 0;
and the words from c on are not used: two mixing loops that differ only there leave the same table. -/
def Obligations.KeyWordsLoadLittleEndian : Prop :=
  (∀ (p : Params) (k : Vector Byte p.B_MAX) (b j : Nat), b ≤ p.B_MAX → j < keyWords p.U b →
    (fileRead (loadWords p.W p.U p.C_MAX k b) j).toNat =
      ∑ i ∈ Finset.range p.U, (if j * p.U + i < b then (fileRead k (j * p.U + i)).toNat else 0) * 2 ^ (8 * i)) ∧
  (∀ (w t n c v : Nat) (m m' : Mixer w t n), m.j < c → m' = { m with l := m'.l } →
    (∀ j, j < c → fileRead m.l j = fileRead m'.l j) → (mixLoop c v m).s = (mixLoop c v m').s)

/-- R100, R94: the table before mixing, S[0] = P_W and S[i] = S[i-1] + Q_W, so S[i] = P_W + i * Q_W; and the two
constants of a 32-bit instance. -/
def Obligations.TableBeforeMixing : Prop :=
  (∀ (w t : Nat) (pw qw : Word w), 0 < t →
    fileRead (initTable pw qw t) 0 = pw ∧
    (∀ i, 0 < i → i < t → fileRead (initTable pw qw t) i = fileRead (initTable pw qw t) (i - 1) + qw) ∧
    (∀ i, i < t → (fileRead (initTable pw qw t) i).toNat = (pw.toNat + i * qw.toNat) % 2 ^ w)) ∧
  magicP .w32 = 0xB7E15163#32 ∧ magicQ .w32 = 0x9E3779B9#32

/-- R101, R102: the table of KeySchedule is the rules' own algorithm on naturals, word by word, for every instance, key
and legal key length. -/
def Obligations.KeyScheduleFollowsTheRules : Prop :=
  ∀ (p : Params) (k : Vector Byte p.B_MAX) (b i : Nat), b ≤ p.B_MAX → i < p.T →
    (fileRead (keySchedule p k b) i).toNat = keyScheduleN p (fun n => (fileRead k n).toNat) b i

/-- R104: the table SCHED writes is the same in any two states, of instances with the same W, P_W, Q_W and R, whose
KEYLEN and whose first KEYLEN key bytes agree, whatever else the states and the instances hold: B_MAX, the earlier S, L,
the block registers, the error registers, REMAIN, the coming events. KEYLEN is within each instance's B_MAX (R31). -/
def Obligations.KeyScheduleDeterminism : Prop :=
  ∀ s s' : State, s.params.width = s'.params.width → s.params.rounds = s'.params.rounds →
    s.eng.keyLen = s'.eng.keyLen → s.eng.keyLen.toNat ≤ s.params.B_MAX → s'.eng.keyLen.toNat ≤ s'.params.B_MAX →
    (∀ n, n < s.eng.keyLen.toNat → keyBufferByte s n = keyBufferByte s' n) →
    ∃ (f : Engine s.params) (f' : Engine s'.params),
      exec .sched s = .next { s with eng := f } ∧ exec .sched s' = .next { s' with eng := f' } ∧
      ∀ i, (fileRead f.skey i).toNat = (fileRead f'.skey i).toNat

/-- R103's example and R109's example (V-KS-2, V-KAT-1): the zero 16-byte key on the reference instance. -/
def Obligations.KnownAnswer : Prop :=
  let zeroKey : Vector Byte Params.reference.B_MAX := fileZero _ 8
  let table := keySchedule Params.reference zeroKey 16
  let y := encrypt Params.reference.LGW Params.reference.R table (Block.zero 32)
  (fileRead table 0).toNat = 0x2A66311C ∧ (fileRead table 1).toNat = 0x9B17852D ∧
  (fileRead table 43).toNat = 0x4B38AC83 ∧
  y.a.toNat = 0x36A5C38F ∧ y.b.toNat = 0x78F7B156 ∧ y.c.toNat = 0x4EDF29C1 ∧ y.d.toNat = 0x1EA44898

/-! ### The commands -/

/-- R83: NOP's word, its issue, and its completion, which changes nothing but BUSY and DONE. -/
def Obligations.NopOnlyRunsTheProtocol : Prop :=
  encode .nop = 0x00000000#32 ∧ issuesUnchecked .nop ∧ illegalWith 0x0#32 0xFFFFFFF0#32 ∧
  ∀ s : State,
    exec .nop s = .next { s with eng := { s.eng with done := true, phase := .idle } } ∧
    (s.eng.die = true → Engine.irq { s.eng with done := true, phase := .idle } = true)

/-- R97: KEYCLR's word, its issue, its completion (K all zero, COUNT 0, all else unchanged); and COUNT falls by KEYCLR
or SCHED completion or by reset only. -/
def Obligations.KeyclrClearsTheKeyBuffer : Prop :=
  encode .keyclr = 0x00000001#32 ∧ issuesUnchecked .keyclr ∧ illegalWith 0x1#32 0xFFFFFFF0#32 ∧
  (∀ s : State, ∃ e' : Engine s.params,
    exec .keyclr s = .next { s with eng := e' } ∧ (∀ n, fileRead e'.key n = 0) ∧ e'.keyCount = 0 ∧
    e' = { s.eng with key := e'.key, keyCount := e'.keyCount, done := true, phase := .idle }) ∧
  (∀ s t : State, Inv s → step s = .next t → t.eng.keyCount.toNat < s.eng.keyCount.toNat →
    completes s .keyclr ∨ completes s .sched ∨ resets s)

/-- R103: SCHED's word, its issue with KEYLEN_MISMATCH and with KEY_VALID cleared at acceptance, and its completion:
S from the key schedule, K, L and COUNT cleared, KEY_VALID set, all else unchanged. -/
def Obligations.SchedComputesTheTable : Prop :=
  encode .sched = 0x00000002#32 ∧ illegalWith 0x2#32 0xFFFFFFF0#32 ∧
  (∀ (p : Params) (e : Engine p) (lat : Nat) (v : BitVec p.WD), v.setWidth 32 = encode .sched →
    (e.busy = true → e.regWrite lat 0x005#12 v = e.raiseError .busy 0x005#12 v) ∧
    (e.busy = false → e.keyCount ≠ e.keyLen →
      e.regWrite lat 0x005#12 v = e.raiseError .keylenMismatch 0x005#12 v) ∧
    (e.busy = false → e.keyCount = e.keyLen →
      e.regWrite lat 0x005#12 v =
        { e with phase := .run (encode .sched) lat, done := false, keyValid := false })) ∧
  (∀ s : State, ∃ e' : Engine s.params,
    exec .sched s = .next { s with eng := e' } ∧
    e'.skey = keySchedule s.params s.eng.key s.eng.keyLen.toNat ∧
    (∀ n, fileRead e'.key n = 0) ∧ (∀ j, fileRead e'.lwords j = 0) ∧
    e' = { s.eng with
      skey := e'.skey, key := e'.key, lwords := e'.lwords, keyCount := 0, keyValid := true,
      done := true, phase := .idle })

/-- R109, R110: ENC's and DEC's words, their issue with NO_KEY, and their completion: the block in the block registers
encrypted or decrypted in place with S, all else unchanged; and the case R = 0. -/
def Obligations.EncAndDecTransformTheBlock : Prop :=
  encode .enc = 0x00000003#32 ∧ encode .dec = 0x00000004#32 ∧ issuesWithKey .enc ∧ issuesWithKey .dec ∧
  illegalWith 0x3#32 0xFFFFFFF0#32 ∧ illegalWith 0x4#32 0xFFFFFFF0#32 ∧
  (∀ s : State, ∃ e' : Engine s.params,
    exec .enc s = .next { s with eng := e' } ∧
    e'.blk = encrypt s.params.LGW s.params.R s.eng.skey s.eng.blk ∧ onlyBlock s.eng e' ∧
    (s.params.R = 0 →
      e'.blk = ⟨s.eng.blk.a + fileRead s.eng.skey 2, s.eng.blk.b + fileRead s.eng.skey 0,
        s.eng.blk.c + fileRead s.eng.skey 3, s.eng.blk.d + fileRead s.eng.skey 1⟩)) ∧
  (∀ s : State, ∃ e' : Engine s.params,
    exec .dec s = .next { s with eng := e' } ∧
    e'.blk = decrypt s.params.LGW s.params.R s.eng.skey s.eng.blk ∧ onlyBlock s.eng e' ∧
    (s.params.R = 0 →
      e'.blk = ⟨s.eng.blk.a - fileRead s.eng.skey 2, s.eng.blk.b - fileRead s.eng.skey 0,
        s.eng.blk.c - fileRead s.eng.skey 3, s.eng.blk.d - fileRead s.eng.skey 1⟩))

/-- R89, R90: ROTL and ROTR by a register, for every choice of the three registers, equal ones among them: the word,
the issue, the value written to rd from the sources as they were, and the frame; an amount that is a multiple of W
leaves x. -/
def Obligations.RotateByRegister : Prop :=
  illegalWith 0x5#32 0xFFFFFC00#32 ∧ illegalWith 0x6#32 0xFFFFFC00#32 ∧
  ∀ rd rs1 rs2 : BlkReg,
    (encode (.rotl rd rs1 rs2)).toNat =
      0x5 + 2 ^ 4 * regNum rd + 2 ^ 6 * regNum rs1 + 2 ^ 8 * regNum rs2 ∧
    (encode (.rotr rd rs1 rs2)).toNat =
      0x6 + 2 ^ 4 * regNum rd + 2 ^ 6 * regNum rs1 + 2 ^ 8 * regNum rs2 ∧
    issuesUnchecked (.rotl rd rs1 rs2) ∧ issuesUnchecked (.rotr rd rs1 rs2) ∧
    (∀ s : State, ∃ e' : Engine s.params,
      exec (.rotl rd rs1 rs2) s = .next { s with eng := e' } ∧
      e'.blk.get rd = rotl (s.eng.blk.get rs1) (s.eng.blk.get rs2).toNat ∧
      ((s.eng.blk.get rs2).toNat % s.params.W = 0 → e'.blk.get rd = s.eng.blk.get rs1) ∧
      (∀ r, r ≠ rd → e'.blk.get r = s.eng.blk.get r) ∧ onlyBlock s.eng e') ∧
    (∀ s : State, ∃ e' : Engine s.params,
      exec (.rotr rd rs1 rs2) s = .next { s with eng := e' } ∧
      e'.blk.get rd = rotr (s.eng.blk.get rs1) (s.eng.blk.get rs2).toNat ∧
      ((s.eng.blk.get rs2).toNat % s.params.W = 0 → e'.blk.get rd = s.eng.blk.get rs1) ∧
      (∀ r, r ≠ rd → e'.blk.get r = s.eng.blk.get r) ∧ onlyBlock s.eng e')

/-- R91, R92: ROTLI and ROTRI by an immediate in 0..63, of which only imm mod W counts: the word, the issue, the value
written to rd, and the frame. -/
def Obligations.RotateByImmediate : Prop :=
  illegalWith 0x7#32 0xFFFF0300#32 ∧ illegalWith 0x8#32 0xFFFF0300#32 ∧
  ∀ (rd rs1 : BlkReg) (imm : Nat), imm ≤ 63 →
    (encode (.rotli rd rs1 imm)).toNat =
      0x7 + 2 ^ 4 * regNum rd + 2 ^ 6 * regNum rs1 + 2 ^ 10 * imm ∧
    (encode (.rotri rd rs1 imm)).toNat =
      0x8 + 2 ^ 4 * regNum rd + 2 ^ 6 * regNum rs1 + 2 ^ 10 * imm ∧
    issuesUnchecked (.rotli rd rs1 imm) ∧ issuesUnchecked (.rotri rd rs1 imm) ∧
    (∀ s : State, ∃ e' : Engine s.params,
      exec (.rotli rd rs1 imm) s = .next { s with eng := e' } ∧
      e'.blk.get rd = rotl (s.eng.blk.get rs1) imm ∧
      e'.blk.get rd = rotl (s.eng.blk.get rs1) (imm % s.params.W) ∧
      (∀ r, r ≠ rd → e'.blk.get r = s.eng.blk.get r) ∧ onlyBlock s.eng e') ∧
    (∀ s : State, ∃ e' : Engine s.params,
      exec (.rotri rd rs1 imm) s = .next { s with eng := e' } ∧
      e'.blk.get rd = rotr (s.eng.blk.get rs1) imm ∧
      e'.blk.get rd = rotr (s.eng.blk.get rs1) (imm % s.params.W) ∧
      (∀ r, r ≠ rd → e'.blk.get r = s.eng.blk.get r) ∧ onlyBlock s.eng e')

/-- R93: MULMIX: the word, the issue, the value written to rd, and the frame. -/
def Obligations.MulmixWritesTheMix : Prop :=
  illegalWith 0x9#32 0xFFFFFF00#32 ∧
  ∀ rd rs1 : BlkReg,
    (encode (.mulmix rd rs1)).toNat = 0x9 + 2 ^ 4 * regNum rd + 2 ^ 6 * regNum rs1 ∧
    issuesUnchecked (.mulmix rd rs1) ∧
    ∀ s : State, ∃ e' : Engine s.params,
      exec (.mulmix rd rs1) s = .next { s with eng := e' } ∧
      (e'.blk.get rd).toNat =
        ((s.eng.blk.get rs1).toNat * (2 * (s.eng.blk.get rs1).toNat + 1)) % 2 ^ s.params.W ∧
      (∀ r, r ≠ rd → e'.blk.get r = s.eng.blk.get r) ∧ onlyBlock s.eng e'

/-- R73 and R106: MULMIX rd, rs and then ROTLI rd, rd, LGW leave f(BLK[rs]) in rd, f as R106 gives it. -/
def Obligations.FmixComputesTheMixingTerm : Prop :=
  ∀ (rd rs : BlkReg) (s : State), ∃ e₁ e₂ : Engine s.params,
    exec (.mulmix rd rs) s = .next { s with eng := e₁ } ∧
    exec (.rotli rd rd s.params.LGW) { s with eng := e₁ } = .next { s with eng := e₂ } ∧
    e₂.blk.get rd = mixTerm s.params.LGW (s.eng.blk.get rs) ∧
    2 ^ s.params.LGW = s.params.W ∧
    (∀ r, r ≠ rd → e₂.blk.get r = s.eng.blk.get r) ∧ onlyBlock s.eng e₂

/-! ### Issue, acceptance, completion -/

/-- R74, R75: what a write of CMD does, check by check in the rule's order, and what acceptance writes, LAT being at
least 1 in every host write; no check looks at the recorded error. -/
def Obligations.CmdWriteChecksInOrder : Prop :=
  ∀ (p : Params) (e : Engine p) (lat : Nat) (v : BitVec p.WD),
    (e.busy = true → e.regWrite lat 0x005#12 v = e.raiseError .busy 0x005#12 v) ∧
    (e.busy = false → (∃ r, decode (v.setWidth 32) = .error r) →
      e.regWrite lat 0x005#12 v = e.raiseError .illegalCmd 0x005#12 v) ∧
    (∀ i, e.busy = false → decode (v.setWidth 32) = .ok i →
      ((i = .enc ∨ i = .dec) → e.keyValid = false →
        e.regWrite lat 0x005#12 v = e.raiseError .noKey 0x005#12 v) ∧
      (i = .sched → e.keyCount ≠ e.keyLen →
        e.regWrite lat 0x005#12 v = e.raiseError .keylenMismatch 0x005#12 v) ∧
      (((i = .enc ∨ i = .dec) → e.keyValid = true) → (i = .sched → e.keyCount = e.keyLen) →
        e.regWrite lat 0x005#12 v =
          { e with
            phase := .run (v.setWidth 32) lat
            done := false
            keyValid := if i = .sched then false else e.keyValid } ∧
        (e.regWrite lat 0x005#12 v).busy = true)) ∧
    (∀ (s : State) (idx : BitVec 12) (x : BitVec s.params.WD), s.rstN = true →
      ∃ l, 1 ≤ l ∧ (s.hostWrite idx x).eng = s.eng.regWrite l idx x)

/-- R45, with R75's latency: a host step is one step of the machine. A read changes no engine state; a write does what
its register's rule gives, a command it issues drawing a latency of at least 1. -/
def Obligations.HostStepsAreAtomic : Prop :=
  ∀ (s : State) (rest : List (Event s.params)),
    (∀ idx, s.inputs = .host (.read idx) :: rest →
      ∃ h n, step s = .next { s with inputs := rest, hRdata := h, draws := n }) ∧
    (∀ idx v, s.inputs = .host (.write idx v) :: rest → s.rstN = true →
      ∃ lat h n, 1 ≤ lat ∧
        step s = .next { s with eng := s.eng.regWrite lat idx v, inputs := rest, hRdata := h, draws := n })

/-- From R76 and R77: an engine step does nothing while idle, and counts REMAIN down while a command has more than one
step left. With no event listed the step is an engine step by the model's choice (assumption 16). -/
def Obligations.EngineStepsIdleAndCount : Prop :=
  ∀ s : State, s.rstN = true → engineIsNext s →
    (s.eng.phase = .idle → step s = .next { s with inputs := s.inputs.tail }) ∧
    (∀ w n, s.eng.phase = .run w (n + 2) →
      step s = .next { s with inputs := s.inputs.tail, eng := { s.eng with phase := .run w (n + 1) } })

/-- From R78: the step that takes REMAIN to 0 runs the command in PENDING and ends the busy period, all in that one
step: with the step's own event gone, it is exec of that command, PHASE is IDLE, BUSY 0 and DONE 1. By the model's
choices, a step with no event listed is such a step (assumption 16), and so is one from REMAIN = 0 in RUN, a phase no
rule produces (assumption 2). -/
def Obligations.StepRunsThePendingCommand : Prop :=
  ∀ (s : State) (i : Instr), completes s i →
    step s = exec i { s with inputs := s.inputs.tail } ∧
    ∃ e' : Engine s.params, step s = .next { s with inputs := s.inputs.tail, eng := e' } ∧
      e'.phase = .idle ∧ e'.busy = false ∧ e'.done = true

/-- The model's choice of assumption 11: a command word placed by withFetchWord is run by the very next step, right
after reset or in any other state. -/
def Obligations.PlacedWordRunsNext : Prop :=
  ∀ (s : State) (w : Nat) (i : Instr), w < 2 ^ 32 → decodeTableWord 32 w = some i →
    step (s.withFetchWord 32 w) =
      exec i { s with eng := { s.eng with phase := .run (BitVec.ofNat 32 w) 1 }, rstN := true }

/-- From R77 ("No result of any command depends on it") and R78: a command with `n + 1` engine steps left, and no event
listed, has after `n + 1` steps exactly the result it has with one step left. That each of these steps is an engine
step is the model's choice (assumption 16). -/
def Obligations.LatencyChangesNoResult : Prop :=
  ∀ (s : State) (w : BitVec 32) (n : Nat) (i : Instr), s.rstN = true → s.inputs = [] →
    s.eng.phase = .run w (n + 1) → decode w = .ok i →
    Host.Core.run Sys2Proof.core (n + 1) s = exec i { s with eng := { s.eng with phase := .run w 1 } }

/-- From R74 to R78: a host's write of a command that passes its checks, run on to completion, gives the command's
effect: from the write to the end of the busy period no other event intervenes. The steps after the write are engine
steps by the model's choice (assumption 16), and so are hRdata and draws after it (assumptions 8 and 14). -/
def Obligations.IssuedCommandTakesEffect : Prop :=
  ∀ (s : State) (i : Instr) (v : BitVec s.params.WD), s.rstN = true → s.eng.busy = false →
    s.inputs = [.host (.write 0x005#12 v)] → decode (v.setWidth 32) = .ok i → s.eng.issueCheck i = .noError →
    ∃ k e', Host.Core.run Sys2Proof.core k s =
        .next { s with eng := e', inputs := [], hRdata := none, draws := s.draws + 1 } ∧
      exec i { s with inputs := [], hRdata := none, draws := s.draws + 1 } =
        .next { s with eng := e', inputs := [], hRdata := none, draws := s.draws + 1 } ∧
      e'.busy = false ∧ e'.done = true

/-- From R79, with the environment's finite list of events (assumption 6) and the engine steps taken when none is left
(assumption 16). From every state that meets the invariant, with any list of host accesses, bound bus accesses, engine
steps and reset events to come (the WAIT loop, which waits for this very thing, left out): the machine comes to a state
with nothing listed and no command in progress; and where no reset is listed, a command in progress stays in progress
until a step that completes that very command comes. -/
def Obligations.EveryAcceptedCommandCompletes : Prop :=
  (∀ s : State, Inv s → busBound s → Event.waitIdle ∉ s.inputs →
    ∃ k t, Host.Core.run Sys2Proof.core k s = .next t ∧ t.inputs = [] ∧ t.eng.busy = false) ∧
  (∀ (s : State) (w : BitVec 32) (n : Nat) (i : Instr), Inv s → busBound s → Event.waitIdle ∉ s.inputs →
    Event.assertReset ∉ s.inputs → s.eng.phase = .run w n → decode w = .ok i →
    ∃ k t, Host.Core.run Sys2Proof.core k s = .next t ∧ completes t i ∧
      ∀ j, j ≤ k → ∃ u, Host.Core.run Sys2Proof.core j s = .next u ∧ u.eng.busy = true)

/-! ### Register writes, errors and reads -/

/-- R80, R117: while busy, a write of CMD, KEYLEN, KEYDATA or a block register is rejected with BUSY, which changes the
error fields only, the command in progress going on; writes of CTRL, STATUS and ERROR are carried out; every other
write has no effect at any time. -/
def Obligations.GatedWritesWhileBusy : Prop :=
  ∀ (p : Params) (e : Engine p) (lat : Nat) (idx : BitVec 12) (v : BitVec p.WD),
    (e.busy = true → idx ∈ [0x005#12, 0x006#12, 0x007#12, 0x010#12, 0x011#12, 0x012#12, 0x013#12] →
      e.regWrite lat idx v = e.raiseError .busy idx v ∧ (e.regWrite lat idx v).phase = e.phase) ∧
    ErrorCode.busy.toBits.toNat = 4 ∧
    (idx ∈ [0x001#12, 0x002#12, 0x003#12] → e.writeCheck idx v = .noError) ∧
    (idx ∉ [0x001#12, 0x002#12, 0x003#12, 0x005#12, 0x006#12, 0x007#12, 0x010#12, 0x011#12, 0x012#12, 0x013#12] →
      e.regWrite lat idx v = e)

/-- R50, R51, R122: writes of CTRL, STATUS and ERROR, busy or not. -/
def Obligations.UngatedRegisterWrites : Prop :=
  ∀ (p : Params) (e : Engine p) (lat : Nat) (v : BitVec p.WD),
    e.regWrite lat 0x001#12 v = { e with die := v.getLsbD 0, eie := v.getLsbD 1 } ∧
    e.regWrite lat 0x002#12 v = { e with done := if v.getLsbD 1 then false else e.done } ∧
    e.regWrite lat 0x003#12 v = { e with errCode := .noError, errMore := false, errIdx := 0, errData := 0 }

/-- R49: a write of block register n: BUSY while busy, else the low W bits of the data and no other change. -/
def Obligations.BlockRegisterWrites : Prop :=
  ∀ (p : Params) (e : Engine p) (lat : Nat) (v : BitVec p.WD) (n : Nat), n < 4 →
    let idx := 0x010#12 + BitVec.ofNat 12 n
    (e.busy = true → e.regWrite lat idx v = e.raiseError .busy idx v) ∧
    (e.busy = false →
      let e' := e.regWrite lat idx v
      (e'.blk.get (blkOfIndex n)).toNat = v.toNat % 2 ^ p.W ∧
      (∀ r, r ≠ blkOfIndex n → e'.blk.get r = e.blk.get r) ∧ e' = { e with blk := e'.blk })

/-- R95, R119: a write of KEYLEN: BUSY, then KEYLEN_RANGE by all of v[31:0], else LEN from v[7:0], which is then that
whole number; nothing else changes. -/
def Obligations.KeylenWrites : Prop :=
  ∀ (p : Params) (e : Engine p) (lat : Nat) (v : BitVec p.WD),
    (e.busy = true → e.regWrite lat 0x006#12 v = e.raiseError .busy 0x006#12 v) ∧
    (e.busy = false → v.toNat % 2 ^ 32 > p.B_MAX →
      e.regWrite lat 0x006#12 v = e.raiseError .keylenRange 0x006#12 v) ∧
    (e.busy = false → v.toNat % 2 ^ 32 ≤ p.B_MAX →
      ∃ l : BitVec 8, e.regWrite lat 0x006#12 v = { e with keyLen := l } ∧ l.toNat = v.toNat % 2 ^ 32) ∧
    ErrorCode.keylenRange.toBits.toNat = 6

/-- R96, R118: a write of KEYDATA: BUSY, then KEY_OVERFLOW, else v[7:0] becomes key byte COUNT, every other key byte is
unchanged, COUNT is one more, and nothing else changes. -/
def Obligations.KeydataAppendsAByte : Prop :=
  ∀ (p : Params) (e : Engine p) (lat : Nat) (v : BitVec p.WD), e.keyCount.toNat ≤ p.B_MAX →
    (e.busy = true → e.regWrite lat 0x007#12 v = e.raiseError .busy 0x007#12 v) ∧
    (e.busy = false → e.keyCount.toNat = p.B_MAX →
      e.regWrite lat 0x007#12 v = e.raiseError .keyOverflow 0x007#12 v) ∧
    (e.busy = false → e.keyCount.toNat ≠ p.B_MAX →
      let e' := e.regWrite lat 0x007#12 v
      (fileRead e'.key e.keyCount.toNat).toNat = v.toNat % 2 ^ 8 ∧
      (∀ n, n ≠ e.keyCount.toNat → fileRead e'.key n = fileRead e.key n) ∧
      e'.keyCount.toNat = e.keyCount.toNat + 1 ∧ e' = { e with key := e'.key, keyCount := e'.keyCount }) ∧
    ErrorCode.keyOverflow.toBits.toNat = 5

/-- R121, R113: recording an error: the first since the last clear is kept whole with its index and untruncated data,
a later one only sets MORE; and the code each error is recorded as. -/
def Obligations.FirstErrorIsKept : Prop :=
  (∀ (p : Params) (e : Engine p) (c : ErrorCode) (idx : BitVec 12) (v : BitVec p.WD),
    (e.errCode = .noError → e.raiseError c idx v = { e with errCode := c, errIdx := idx, errData := v }) ∧
    (e.errCode ≠ .noError → e.raiseError c idx v = { e with errMore := true })) ∧
  [ErrorCode.noError, .illegalCmd, .keylenMismatch, .noKey, .busy, .keyOverflow, .keylenRange].map
    (fun c => c.toBits.toNat) = [0, 1, 2, 3, 4, 5, 6]

/-- R123, R112, R120: every write that any check stops leaves all but the error fields as they were, and the code it
reports is that of one check. -/
def Obligations.RejectedWritesAreErased : Prop :=
  ∀ (p : Params) (e : Engine p) (lat : Nat) (idx : BitVec 12) (v : BitVec p.WD),
    e.writeCheck idx v ≠ .noError →
    let e' := e.regWrite lat idx v
    e' = { e with errCode := e'.errCode, errMore := e'.errMore, errIdx := e'.errIdx, errData := e'.errData } ∧
    (e.errCode = .noError →
      e'.errCode = e.writeCheck idx v ∧ e'.errIdx = idx ∧ e'.errData = v ∧ e'.errMore = e.errMore) ∧
    (e.errCode ≠ .noError →
      e'.errCode = e.errCode ∧ e'.errIdx = e.errIdx ∧ e'.errData = e.errData ∧ e'.errMore = true)

/-- R25 to R29, R31, R33, R47: what ID, CTRL, STATUS, ERROR, ERRDATA, KEYLEN and KEYCNT read as, field by field as
numbers, zero-extended; CMD and KEYDATA read 0 (R30, R32). -/
def Obligations.RegisterReadLayout : Prop :=
  ∀ (p : Params) (e : Engine p),
    (e.regRead 0x000#12).toNat = p.W + 2 ^ 8 * p.R + 2 ^ 16 * p.B_MAX + 2 ^ 24 * 0x01 ∧
    (e.regRead 0x001#12).toNat = e.die.toNat + 2 * e.eie.toNat ∧
    (e.regRead 0x002#12).toNat = e.busy.toNat + 2 * e.done.toNat + 4 * e.keyValid.toNat + 8 * e.irq.toNat ∧
    (e.regRead 0x003#12).toNat = e.errCode.toBits.toNat + 2 ^ 4 * e.errMore.toNat + 2 ^ 8 * e.errIdx.toNat ∧
    (e.regRead 0x004#12).toNat = e.errData.toNat ∧
    (e.regRead 0x005#12).toNat = 0 ∧
    (e.regRead 0x006#12).toNat = e.keyLen.toNat ∧
    (e.regRead 0x007#12).toNat = 0 ∧
    (e.regRead 0x008#12).toNat = e.keyCount.toNat

/-- R34, R35, R47, R24: the block registers read at 0x010 to 0x013 and the round keys at 0x100 + i, zero-extended;
every index outside the map reads 0. -/
def Obligations.FileReadsAndUnmappedReads : Prop :=
  ∀ (p : Params) (e : Engine p),
    (∀ n, n < 4 → (e.regRead (0x010#12 + BitVec.ofNat 12 n)).toNat = (e.blk.get (blkOfIndex n)).toNat) ∧
    (∀ i, i < p.T → (e.regRead (0x100#12 + BitVec.ofNat 12 i)).toNat = (fileRead e.skey i).toNat) ∧
    (∀ idx : BitVec 12,
      (0x008 < idx.toNat ∧ idx.toNat < 0x010) ∨ (0x013 < idx.toNat ∧ idx.toNat < 0x100) ∨
        0x100 + p.T ≤ idx.toNat → (e.regRead idx).toNat = 0)

/-- R81, R134 with the model's free values (assumptions 4, 5 and 7) and its hRdata and draws (8 and 14): a read of a
volatile register while busy, and any read in reset, returns a free draw cut to the register's width; every other read
is exact. A claim about a free value holds whatever it is. -/
def Obligations.VolatileReadsAreFree : Prop :=
  ∀ (s : State) (rest : List (Event s.params)) (idx : BitVec 12), s.inputs = .host (.read idx) :: rest →
    (s.rstN = true → s.eng.busy = true → (Reg.ofIndex s.params idx).volatile = true →
      step s = .next { s with
        inputs := rest, draws := s.draws + 1,
        hRdata := some (freeRead s.params (Reg.ofIndex s.params idx).width s.draws) }) ∧
    (s.rstN = true → (s.eng.busy = false ∨ (Reg.ofIndex s.params idx).volatile = false) →
      step s = .next { s with inputs := rest, draws := s.draws + 1, hRdata := some (s.eng.regRead idx) }) ∧
    (s.rstN = false →
      step s = .next { s with
        inputs := rest, draws := s.draws + 1, hRdata := some (freeRead s.params s.params.WD s.draws) }) ∧
    ((Reg.ofIndex s.params idx).volatile = true ↔
      idx.toNat = 0x008 ∨ (0x010 ≤ idx.toNat ∧ idx.toNat ≤ 0x013) ∨
        (0x100 ≤ idx.toNat ∧ idx.toNat < 0x100 + s.params.T))

/-- R125: the level of irq, and that STATUS bit 3 reads it. -/
def Obligations.InterruptLevel : Prop :=
  ∀ (p : Params) (e : Engine p),
    (e.irq = true ↔ (e.die = true ∧ e.done = true) ∨ (e.eie = true ∧ e.errCode ≠ .noError)) ∧
    (e.regRead 0x002#12).getLsbD 3 = e.irq

/-! ### Reset -/

/-- R135: every piece of state right after reset, for every instance; every register but ID reads 0; irq is 0; and the
reference instance's ID. -/
def Obligations.ResetState : Prop :=
  (∀ p : Params,
    let s := State.resetOf p
    let e := s.eng
    s.params = p ∧ e.die = false ∧ e.eie = false ∧ e.busy = false ∧ e.done = false ∧ e.keyValid = false ∧
    e.irq = false ∧ e.errCode = .noError ∧ e.errMore = false ∧ e.errIdx = 0 ∧ e.errData = 0 ∧ e.keyLen = 0 ∧
    e.keyCount = 0 ∧ (∀ r, e.blk.get r = 0) ∧ (∀ i, fileRead e.skey i = 0) ∧ (∀ n, fileRead e.key n = 0) ∧
    (∀ j, fileRead e.lwords j = 0) ∧ e.phase = .idle ∧ (∀ idx, idx ≠ 0x000#12 → e.regRead idx = 0)) ∧
  State.reset = State.resetOf Params.reference ∧
  (State.reset.eng.regRead 0x000#12).toNat = 0x01201420

/-- R134, R136: asserting reset gives the reset state at once from any state, a command in progress included; while it
is asserted a host write and an engine step have no effect; releasing it changes nothing else. What becomes of hRdata
and draws is the model's choice (assumptions 8 and 14). -/
def Obligations.ResetOverridesAll : Prop :=
  ∀ (s : State) (rest : List (Event s.params)),
    (s.inputs = .assertReset :: rest →
      step s = .next { s with eng := Engine.reset s.params, rstN := false, hRdata := none, inputs := rest }) ∧
    (∀ idx v, s.rstN = false → s.inputs = .host (.write idx v) :: rest →
      step s = .next { s with hRdata := none, inputs := rest, draws := s.draws + 1 }) ∧
    (s.rstN = false → s.inputs = .engine :: rest → step s = .next { s with inputs := rest }) ∧
    (s.inputs = .releaseReset :: rest → step s = .next { s with rstN := true, inputs := rest })

/-- R137: right after reset ENC and DEC are rejected with NO_KEY, both interrupt sources are masked and irq is 0. -/
def Obligations.NoKeyAfterReset : Prop :=
  ∀ (p : Params) (lat : Nat) (v : BitVec p.WD), v.setWidth 32 = encode .enc ∨ v.setWidth 32 = encode .dec →
    let e := Engine.reset p
    e.regWrite lat 0x005#12 v = { e with errCode := .noKey, errIdx := 0x005#12, errData := v } ∧
    e.keyValid = false ∧ e.die = false ∧ e.eie = false ∧ e.irq = false

/-! ### Rules of the whole machine -/

/-- The invariant holds right after reset, of every instance. -/
def Obligations.ResetMeetsInvariant : Prop := ∀ p : Params, Inv (State.resetOf p)

/-- Every step keeps the invariant: LEN and COUNT within B_MAX (R31, R33), K zero above COUNT (R42), clear error
registers clear, L without key material, and while RUN a legal command in PENDING that passed its checks, DONE = 0 and
REMAIN at least 1 (R41, R75). -/
def Obligations.StepKeepsInvariant : Prop := ∀ s t : State, Inv s → step s = .next t → Inv t

/-- R124 ("An accepted command always completes with the result its rule gives") with R54: from a state that meets the
invariant, with every listed bus access whole, a step neither faults nor is refused, and the next state is such a
state again: it meets the invariant, and every bus access it lists is whole. -/
def Obligations.InvariantStepsAreSafe : Prop :=
  ∀ s : State, Inv s → busBound s → ∃ t, step s = .next t ∧ Inv t ∧ busBound t

/-- R8 ("`R` is fixed once the hardware is built") for every elaboration parameter: no step changes the instance. -/
def Obligations.ParametersAreFixed : Prop := ∀ s t : State, step s = .next t → t.params = s.params

/-- From R38: a round key changes by SCHED completion or reset only. Completing steps include those of assumptions 2
and 16. -/
def Obligations.RoundKeysChangeOnlyBySched : Prop :=
  (∀ s t : State, step s = .next t → (∃ i, roundKey t i ≠ roundKey s i) → completes s .sched ∨ resets s) ∧
  (∀ (p : Params) (i : Nat), roundKey (State.resetOf p) i = 0)

/-- From R27, each rise and each fall of the three stored status bits: BUSY rises at the acceptance of a command and
falls at a completion or reset; DONE rises at a completion and falls at the acceptance of a command, at a write of 1 to
STATUS bit 1 or at reset; KEY_VALID rises at SCHED completion and falls at the acceptance of SCHED or at reset. (IRQ is
a function of the rest: InterruptLevel.) Completing steps include those of assumptions 2 and 16. -/
def Obligations.StatusBitsChangeOnlyAsStated : Prop :=
  ∀ s t : State, step s = .next t →
    (s.eng.busy = false → t.eng.busy = true → ∃ i, accepts s i) ∧
    (s.eng.busy = true → t.eng.busy = false → (∃ i, completes s i) ∨ resets s) ∧
    (s.eng.done = false → t.eng.done = true → ∃ i, completes s i) ∧
    (s.eng.done = true → t.eng.done = false →
      (∃ i, accepts s i) ∨ (∃ v, writes s 0x002#12 v ∧ v.getLsbD 1 = true) ∨ resets s) ∧
    (s.eng.keyValid = false → t.eng.keyValid = true → completes s .sched) ∧
    (s.eng.keyValid = true → t.eng.keyValid = false → accepts s .sched ∨ resets s)

/-- R34: a block register changes by a host write of it, by the completion of a command that writes it, or by reset
only. -/
def Obligations.BlockRegistersChangeOnlyAsStated : Prop :=
  ∀ (s t : State) (n : Nat), n < 4 → step s = .next t → blockWord t (blkOfIndex n) ≠ blockWord s (blkOfIndex n) →
    (∃ v, writes s (0x010#12 + BitVec.ofNat 12 n) v) ∨ resets s ∨
    completes s .enc ∨ completes s .dec ∨
    ∃ rs1 rs2 imm, completes s (.rotl (blkOfIndex n) rs1 rs2) ∨ completes s (.rotr (blkOfIndex n) rs1 rs2) ∨
      completes s (.rotli (blkOfIndex n) rs1 imm) ∨ completes s (.rotri (blkOfIndex n) rs1 imm) ∨
      completes s (.mulmix (blkOfIndex n) rs1)

/-- From R39 ("The host cannot read it"): two states that differ in the key buffer only step to states that differ in
the key buffer only (so every register reads the same, h_rdata among them), unless the step completes SCHED; and both
stop alike. -/
def Obligations.KeyBufferReachesOnlySched : Prop :=
  ∀ s s' : State, sameButKey s s' → ¬ completes s .sched →
    (∃ t t', step s = .next t ∧ step s' = .next t' ∧ sameButKey t t' ∧
      (∀ idx, (t.readData idx).toNat = (t'.readData idx).toNat)) ∨
    (∃ r, step s = .fault r ∧ step s' = .fault r) ∨ (∃ r, step s = .refused r ∧ step s' = .refused r)

/-! ### The platform's side -/

/-- R46, R53, R54: BUS_BINDING. Under the default binding a whole, aligned access at idx * (WD/8) is bound to the host
step of that index and no other access is bound. Under a platform's own (assumption 9) the first row of an access's
spans gives the index, where they carry the whole register with its low half at the lower address, and an access of no
row is not bound. Under every binding a bound access is WD bits, and a 64-bit write in two halves has bits [31:0] at
the lower address. A step that meets a bound access carries out that host step and nothing else; a step that meets any
other access is refused by name. -/
def Obligations.BusBindingGivesHostSteps : Prop :=
  (∀ (p : Params) (idx : BitVec 12), p.binding = .default →
    (BusAccess.read [⟨idx.toNat * (p.WD / 8), p.WD / 8⟩]).bind p = some (.read idx) ∧
    ∀ v : BitVec (8 * (p.WD / 8)),
      (BusAccess.write [⟨⟨idx.toNat * (p.WD / 8), p.WD / 8⟩, v⟩]).bind p = some (.write idx (v.setWidth p.WD))) ∧
  (∀ (p : Params) (b : BusAccess), p.binding = .default → b.bind p ≠ none →
    ∃ o, b.spans = [⟨o, p.WD / 8⟩] ∧ o % (p.WD / 8) = 0 ∧ o < 4096 * (p.WD / 8)) ∧
  (∀ (p : Params) (b : BusAccess) (earlier later : List BindingRow) (r : BindingRow),
    p.binding = .platform (earlier ++ r :: later) → (∀ x ∈ earlier, x.spans ≠ r.spans) → b.spans = r.spans →
    spanBytes r.spans = p.WD / 8 → lowHalfFirst (p.WD / 8) r.spans = true → b.bind p = some (b.access p r.idx)) ∧
  (∀ (p : Params) (b : BusAccess) (rows : List BindingRow), p.binding = .platform rows →
    (∀ x ∈ rows, x.spans ≠ b.spans) → b.bind p = none) ∧
  (∀ (p : Params) (b : BusAccess) (a : Access p), b.bind p = some a →
    spanBytes b.spans = p.WD / 8 ∧ ∃ idx, a = b.access p idx) ∧
  (∀ (p : Params) (o o' : Nat) (lo hi : BitVec 32) (idx : BitVec 12) (v : BitVec p.WD), p.WD = 64 →
    (BusAccess.write [⟨⟨o, 4⟩, lo⟩, ⟨⟨o', 4⟩, hi⟩]).bind p = some (.write idx v) →
    o + 4 ≤ o' ∧ v.toNat % 2 ^ 32 = lo.toNat ∧ v.toNat / 2 ^ 32 = hi.toNat) ∧
  (∀ (s : State) (rest : List (Event s.params)) (b : BusAccess) (a : Access s.params),
    s.inputs = .bus b :: rest → b.bind s.params = some a → step s = step { s with inputs := .host a :: rest }) ∧
  (∀ (s : State) (rest : List (Event s.params)) (b : BusAccess),
    s.inputs = .bus b :: rest → b.bind s.params = none → step s = .refused .unboundBusAccess)

/-- R52: a block from its 4U bytes and the bytes of a block, as the rule's two formulas, for every width; and the two
conversions undo each other. -/
def Obligations.BlockByteOrder : Prop :=
  ∀ (wd : Width) (x : Nat → Byte) (b : Block wd.bits),
    (∀ n, n < 4 → ((blockOfBytes wd.bits x).get (blkOfIndex n)).toNat =
      ∑ k ∈ Finset.range (wd.bits / 8), (x (n * (wd.bits / 8) + k)).toNat * 2 ^ (8 * k)) ∧
    (∀ n k, n < 4 → k < wd.bits / 8 → (byteOfBlock b (n * (wd.bits / 8) + k)).toNat =
      (b.get (blkOfIndex n)).toNat / 2 ^ (8 * k) % 2 ^ 8) ∧
    (∀ n, n < 4 → regNum (blkOfIndex n) = n) ∧
    blockOfBytes wd.bits (byteOfBlock b) = b ∧
    (∀ i, i < 4 * (wd.bits / 8) → byteOfBlock (blockOfBytes wd.bits x) i = x i)

/-- From R127, the order in the list being the order of the cycle (assumption 6): a host write of CMD in the cycle in
which the running command completes: host first, it is rejected with BUSY and the command then completes; engine
first, the command completes and the write is checked idle. -/
def Obligations.SameCycleOrders : Prop :=
  ∀ (s : State) (i : Instr) (v : BitVec s.params.WD) (w : BitVec 32) (f : Engine s.params), s.rstN = true →
    s.eng.phase = .run w 1 → decode w = .ok i → exec i s = .next { s with eng := f } →
    (∃ d h g, Host.Core.run Sys2Proof.core 2 { s with inputs := [.host (.write 0x005#12 v), .engine] } =
        .next { s with eng := g, inputs := [], draws := d, hRdata := h } ∧
      exec i { s with eng := s.eng.raiseError .busy 0x005#12 v } = .next { s with eng := g }) ∧
    (∃ d h lat, Host.Core.run Sys2Proof.core 2 { s with inputs := [.engine, .host (.write 0x005#12 v)] } =
        .next { s with eng := f.regWrite lat 0x005#12 v, inputs := [], draws := d, hRdata := h } ∧
      f.busy = false)

/-- From R6, R8, R10 and R12: elaboration builds an instance for W in 16, 32, 64 with R and B_MAX in 0..255, whose
parameters and BUS_BINDING are those asked for, and no hardware otherwise; U and LGW as R7 gives them; P_W and Q_W
those asked for where W is 16 or 64 and they fit in W bits, and the spec's literals where W is 32 (R94). That an
instance is built for a P_W or Q_W that does not fit is the model's choice (assumption 20). -/
def Obligations.ElaborationBuildsLegalInstancesOnly : Prop :=
  (∀ (w r b pw qw : Nat) (bb : BusBinding),
    ((w = 16 ∨ w = 32 ∨ w = 64) ∧ r ≤ 255 ∧ b ≤ 255 ↔ ∃ p, Params.elaborate w r b pw qw bb = some p)) ∧
  (∀ (w r b pw qw : Nat) (bb : BusBinding) (p : Params), Params.elaborate w r b pw qw bb = some p →
    p.W = w ∧ p.R = r ∧ p.B_MAX = b ∧ p.binding = bb ∧ 2 ^ p.LGW = w ∧ p.U * 8 = w ∧ p.T = 2 * r + 4 ∧ p.WD = max 32 w ∧
    ((w = 16 ∨ w = 64) → pw < 2 ^ w → (magicP p.width).toNat = pw) ∧
    ((w = 16 ∨ w = 64) → qw < 2 ^ w → (magicQ p.width).toNat = qw) ∧
    (w = 32 → (magicP p.width).toNat = 0xB7E15163 ∧ (magicQ p.width).toNat = 0x9E3779B9))

/-- From R73 (the WAIT loop's engine steps are assumption 13, hRdata and draws assumptions 8 and 14): WAIT reads
STATUS until BUSY reads 0; LOADKEY runs KEYCLR, writes KEYLEN and then the bytes in order. -/
def Obligations.PseudoCommandsExpand : Prop :=
  (∀ (s : State) (rest : List (Event s.params)), s.rstN = true → s.inputs = .waitIdle :: rest →
    (s.eng.busy = false →
      step s = .next { s with
        inputs := rest, draws := s.draws + 1, hRdata := some (s.eng.regRead 0x002#12) }) ∧
    (s.eng.busy = true →
      step s = .next { s with
        inputs := .engine :: .waitIdle :: rest, draws := s.draws + 1, hRdata := some (s.eng.regRead 0x002#12) })) ∧
  (∀ (p : Params) (bytes : List Byte),
    (ScriptLine.loadKey bytes : ScriptLine p).events =
      [.host (.write 0x005#12 ((encode .keyclr).setWidth p.WD)), .waitIdle,
       .host (.write 0x006#12 (BitVec.ofNat p.WD bytes.length))] ++
      bytes.map fun x => .host (.write 0x007#12 (x.setWidth p.WD)))
end

