-- ==== Sys2Proof/Laws/Bus.lean ====
section
/-! SUPPORT. What a BUS_BINDING can bind, said once. -/

namespace Sys2Proof.Machine

/-- A bound index, said once: the default binding's place of it, or a platform row whose spans carry the whole
register. -/
theorem boundIndex_some {lane : Nat} {bb : BusBinding} {spans : List Span} {idx : BitVec 12}
    (h : boundIndex lane bb spans = some idx) :
    (bb = .default ∧ spans = [⟨idx.toNat * lane, lane⟩]) ∨
    (∃ rows r, bb = .platform rows ∧ r ∈ rows ∧ r.spans = spans ∧ r.idx = idx ∧
      spanBytes spans = lane ∧ lowHalfFirst lane spans = true) := by
  cases bb with
  | default =>
    match spans, h with
    | [x], h =>
      left
      simp only [boundIndex] at h
      split at h
      · rename_i hx
        obtain ⟨hs, hm, ho⟩ := hx
        have hl : x.offset / lane < 4096 := Nat.div_lt_of_lt_mul (by rw [Nat.mul_comm]; exact ho)
        cases h
        obtain ⟨o, n⟩ := x
        dsimp only at *
        subst hs
        rw [BitVec.toNat_ofNat, Nat.mod_eq_of_lt hl, Nat.div_mul_cancel (Nat.dvd_of_mod_eq_zero hm)]
        exact ⟨rfl, rfl⟩
      · cases h
  | platform rows =>
    right
    simp only [boundIndex] at h
    split at h
    · rename_i hx
      obtain ⟨r, hr, rfl⟩ := Option.map_eq_some_iff.1 h
      exact ⟨rows, r, rfl, List.mem_of_find?_eq_some hr, by simpa using List.find?_some hr, rfl, hx⟩
    · cases h

/-- A platform's first row of some spans gives their index. -/
theorem boundIndex_row {lane : Nat} {earlier later : List BindingRow} {r : BindingRow}
    (he : ∀ x ∈ earlier, x.spans ≠ r.spans) (hs : spanBytes r.spans = lane) (hl : lowHalfFirst lane r.spans = true) :
    boundIndex lane (.platform (earlier ++ r :: later)) r.spans = some r.idx := by
  simp only [boundIndex, hs, hl, and_self, if_true]
  rw [List.find?_append, List.find?_eq_none.2 (by simpa using he)]
  simp

/-- The default binding's place of an index gives that index. -/
theorem boundIndex_default {lane : Nat} (h : 0 < lane) (idx : BitVec 12) :
    boundIndex lane .default [⟨idx.toNat * lane, lane⟩] = some idx := by
  have : idx.toNat * lane < 4096 * lane := Nat.mul_lt_mul_of_pos_right idx.isLt h
  simp [boundIndex, this, Nat.mul_div_cancel _ h]

/-- The halves of a 64-bit register carry it. -/
theorem joinBeats_splitRegister (offset : Nat) (v : BitVec 64) : joinBeats (splitRegister offset v) = v.toNat := by
  have := v.isLt
  simp only [joinBeats, splitRegister, BitVec.extractLsb'_toNat, Nat.shiftRight_eq_div_pow]
  omega

end Sys2Proof.Machine
end

