-- ==== Sys2Proof/Laws/State.lean ====
section
/-! SUPPORT. One lemma per field per update of the state, each true by unfolding, so that no later proof opens a record
update. -/

namespace Sys2Proof.Machine

/-! ### Block registers -/

section
variable {w : Nat} (b : Block w) (r r' : BlkReg) (x y : Word w)

@[ext] theorem Block.ext_get {b b' : Block w} (h : ∀ r, b.get r = b'.get r) : b = b' := by
  cases b; cases b'
  have hA := h .A; have hB := h .B; have hC := h .C; have hD := h .D
  simp only [Block.get] at hA hB hC hD
  simp [hA, hB, hC, hD]

@[simp] theorem Block.eta : (⟨b.a, b.b, b.c, b.d⟩ : Block w) = b := rfl

@[simp] theorem Block.get_set_same : (b.set r x).get r = x := by cases r <;> rfl

theorem Block.get_set_other (h : r' ≠ r) : (b.set r x).get r' = b.get r' := by
  cases r <;> cases r' <;> first | rfl | exact absurd rfl h

@[simp] theorem Block.set_set : (b.set r x).set r y = b.set r y := by cases r <;> rfl

@[simp] theorem Block.set_get : b.set r (b.get r) = b := by cases r <;> rfl

@[simp] theorem Block.get_zero : (Block.zero w).get r = 0 := by cases r <;> rfl

end

/-! ### The engine -/

section
variable {p : Params} (e : Engine p)

section
variable (r : BlkReg) (x : Word p.W)
@[simp] theorem Engine.setBlk_die : (e.setBlk r x).die = e.die := rfl
@[simp] theorem Engine.setBlk_eie : (e.setBlk r x).eie = e.eie := rfl
@[simp] theorem Engine.setBlk_done : (e.setBlk r x).done = e.done := rfl
@[simp] theorem Engine.setBlk_keyValid : (e.setBlk r x).keyValid = e.keyValid := rfl
@[simp] theorem Engine.setBlk_errCode : (e.setBlk r x).errCode = e.errCode := rfl
@[simp] theorem Engine.setBlk_errMore : (e.setBlk r x).errMore = e.errMore := rfl
@[simp] theorem Engine.setBlk_errIdx : (e.setBlk r x).errIdx = e.errIdx := rfl
@[simp] theorem Engine.setBlk_errData : (e.setBlk r x).errData = e.errData := rfl
@[simp] theorem Engine.setBlk_keyLen : (e.setBlk r x).keyLen = e.keyLen := rfl
@[simp] theorem Engine.setBlk_keyCount : (e.setBlk r x).keyCount = e.keyCount := rfl
@[simp] theorem Engine.setBlk_blk : (e.setBlk r x).blk = e.blk.set r x := rfl
@[simp] theorem Engine.setBlk_skey : (e.setBlk r x).skey = e.skey := rfl
@[simp] theorem Engine.setBlk_key : (e.setBlk r x).key = e.key := rfl
@[simp] theorem Engine.setBlk_lwords : (e.setBlk r x).lwords = e.lwords := rfl
@[simp] theorem Engine.setBlk_phase : (e.setBlk r x).phase = e.phase := rfl
end

@[simp] theorem Engine.finish_die : e.finish.die = e.die := rfl
@[simp] theorem Engine.finish_eie : e.finish.eie = e.eie := rfl
@[simp] theorem Engine.finish_done : e.finish.done = true := rfl
@[simp] theorem Engine.finish_keyValid : e.finish.keyValid = e.keyValid := rfl
@[simp] theorem Engine.finish_errCode : e.finish.errCode = e.errCode := rfl
@[simp] theorem Engine.finish_errMore : e.finish.errMore = e.errMore := rfl
@[simp] theorem Engine.finish_errIdx : e.finish.errIdx = e.errIdx := rfl
@[simp] theorem Engine.finish_errData : e.finish.errData = e.errData := rfl
@[simp] theorem Engine.finish_keyLen : e.finish.keyLen = e.keyLen := rfl
@[simp] theorem Engine.finish_keyCount : e.finish.keyCount = e.keyCount := rfl
@[simp] theorem Engine.finish_blk : e.finish.blk = e.blk := rfl
@[simp] theorem Engine.finish_skey : e.finish.skey = e.skey := rfl
@[simp] theorem Engine.finish_key : e.finish.key = e.key := rfl
@[simp] theorem Engine.finish_lwords : e.finish.lwords = e.lwords := rfl
@[simp] theorem Engine.finish_phase : e.finish.phase = .idle := rfl
@[simp] theorem Engine.finish_busy : e.finish.busy = false := rfl

@[simp] theorem Engine.clearError_die : e.clearError.die = e.die := rfl
@[simp] theorem Engine.clearError_eie : e.clearError.eie = e.eie := rfl
@[simp] theorem Engine.clearError_done : e.clearError.done = e.done := rfl
@[simp] theorem Engine.clearError_keyValid : e.clearError.keyValid = e.keyValid := rfl
@[simp] theorem Engine.clearError_errCode : e.clearError.errCode = .noError := rfl
@[simp] theorem Engine.clearError_errMore : e.clearError.errMore = false := rfl
@[simp] theorem Engine.clearError_errIdx : e.clearError.errIdx = 0 := rfl
@[simp] theorem Engine.clearError_errData : e.clearError.errData = 0 := rfl
@[simp] theorem Engine.clearError_keyLen : e.clearError.keyLen = e.keyLen := rfl
@[simp] theorem Engine.clearError_keyCount : e.clearError.keyCount = e.keyCount := rfl
@[simp] theorem Engine.clearError_blk : e.clearError.blk = e.blk := rfl
@[simp] theorem Engine.clearError_skey : e.clearError.skey = e.skey := rfl
@[simp] theorem Engine.clearError_key : e.clearError.key = e.key := rfl
@[simp] theorem Engine.clearError_lwords : e.clearError.lwords = e.lwords := rfl
@[simp] theorem Engine.clearError_phase : e.clearError.phase = e.phase := rfl

end

/-! ### The state -/

section
variable (s : State)

@[simp] theorem State.complete_params (e : Engine s.params) : (s.complete e).params = s.params := rfl
@[simp] theorem State.complete_eng (e : Engine s.params) : (s.complete e).eng = e.finish := rfl
@[simp] theorem State.complete_rstN (e : Engine s.params) : (s.complete e).rstN = s.rstN := rfl
@[simp] theorem State.complete_hRdata (e : Engine s.params) : (s.complete e).hRdata = s.hRdata := rfl
@[simp] theorem State.complete_inputs (e : Engine s.params) : (s.complete e).inputs = s.inputs := rfl
@[simp] theorem State.complete_draws (e : Engine s.params) : (s.complete e).draws = s.draws := rfl

@[simp] theorem State.assertReset_params : s.assertReset.params = s.params := rfl
@[simp] theorem State.assertReset_eng : s.assertReset.eng = Engine.reset s.params := rfl
@[simp] theorem State.assertReset_rstN : s.assertReset.rstN = false := rfl
@[simp] theorem State.assertReset_hRdata : s.assertReset.hRdata = none := rfl
@[simp] theorem State.assertReset_inputs : s.assertReset.inputs = s.inputs := rfl
@[simp] theorem State.assertReset_draws : s.assertReset.draws = s.draws := rfl

@[simp] theorem State.releaseReset_params : s.releaseReset.params = s.params := rfl
@[simp] theorem State.releaseReset_eng : s.releaseReset.eng = s.eng := rfl
@[simp] theorem State.releaseReset_rstN : s.releaseReset.rstN = true := rfl
@[simp] theorem State.releaseReset_hRdata : s.releaseReset.hRdata = s.hRdata := rfl
@[simp] theorem State.releaseReset_inputs : s.releaseReset.inputs = s.inputs := rfl
@[simp] theorem State.releaseReset_draws : s.releaseReset.draws = s.draws := rfl

@[simp] theorem State.hostRead_params (i : BitVec 12) : (s.hostRead i).params = s.params := rfl
@[simp] theorem State.hostRead_eng (i : BitVec 12) : (s.hostRead i).eng = s.eng := rfl
@[simp] theorem State.hostRead_rstN (i : BitVec 12) : (s.hostRead i).rstN = s.rstN := rfl
@[simp] theorem State.hostRead_hRdata (i : BitVec 12) : (s.hostRead i).hRdata = some (s.readData i) := rfl
@[simp] theorem State.hostRead_inputs (i : BitVec 12) : (s.hostRead i).inputs = s.inputs := rfl
@[simp] theorem State.hostRead_draws (i : BitVec 12) : (s.hostRead i).draws = s.draws + 1 := rfl

section
variable (i : BitVec 12) (v : BitVec s.params.WD)
@[simp] theorem State.hostWrite_params : (s.hostWrite i v).params = s.params := rfl
@[simp] theorem State.hostWrite_rstN : (s.hostWrite i v).rstN = s.rstN := rfl
@[simp] theorem State.hostWrite_hRdata : (s.hostWrite i v).hRdata = none := rfl
@[simp] theorem State.hostWrite_inputs : (s.hostWrite i v).inputs = s.inputs := rfl
@[simp] theorem State.hostWrite_draws : (s.hostWrite i v).draws = s.draws + 1 := rfl
end

@[simp] theorem State.withPending_params (w : BitVec 32) : (s.withPending w).params = s.params := rfl
@[simp] theorem State.withPending_phase (w : BitVec 32) : (s.withPending w).eng.phase = .run w 1 := rfl
@[simp] theorem State.withPending_rstN (w : BitVec 32) : (s.withPending w).rstN = true := rfl
@[simp] theorem State.withPending_inputs (w : BitVec 32) : (s.withPending w).inputs = .engine :: s.inputs := rfl
@[simp] theorem State.withPending_hRdata (w : BitVec 32) : (s.withPending w).hRdata = s.hRdata := rfl
@[simp] theorem State.withPending_draws (w : BitVec 32) : (s.withPending w).draws = s.draws := rfl

end

end Sys2Proof.Machine
end

