-- ==== Sys2Proof/Laws/Ops.lean ====
section
/-! SUPPORT. What each shared operation can do, said once: files, errors, acceptance, register writes, decoding and
the meanings. Later proofs cite these and do not unfold the operations. -/

namespace Sys2Proof.Machine

/-! ### Files -/

section
variable {n w : Nat} (f : Vector (BitVec w) n)

theorem fileRead_of_lt {i : Nat} (h : i < n) : fileRead f i = f[i] := by
  simp [fileRead, h]

theorem fileRead_of_ge {i : Nat} (h : n ≤ i) : fileRead f i = 0 := by
  simp [fileRead, h]

theorem fileRead_write_same {i : Nat} (h : i < n) (x : BitVec w) : fileRead (fileWrite f i x) i = x := by
  simp [fileRead, fileWrite, h]

theorem fileRead_write_other {i j : Nat} (h : i ≠ j) (x : BitVec w) :
    fileRead (fileWrite f i x) j = fileRead f j := by
  simp [fileRead, fileWrite, h]

@[simp] theorem fileRead_zero (i : Nat) : fileRead (fileZero n w) i = 0 := by
  by_cases h : i < n <;> simp [fileRead, fileZero, h]

@[simp] theorem fileRead_replicate_zero (i : Nat) : fileRead (Vector.replicate n 0#w) i = 0 :=
  fileRead_zero i

theorem fileRead_ofFn (g : Fin n → BitVec w) {i : Nat} (h : i < n) : fileRead (Vector.ofFn g) i = g ⟨i, h⟩ := by
  simp [fileRead, h]

/-- Two files with the same entries are equal. -/
theorem file_ext {f g : Vector (BitVec w) n} (h : ∀ i, i < n → fileRead f i = fileRead g i) : f = g := by
  ext i hi
  have := h i hi
  rw [fileRead_of_lt f hi, fileRead_of_lt g hi] at this
  rw [this]

end

/-! ### The sequencer -/

section
variable {p : Params} (e : Engine p)

theorem Engine.busy_eq_true : e.busy = true ↔ ∃ w n, e.phase = .run w n := by
  unfold Engine.busy
  cases h : e.phase <;> simp

theorem Engine.busy_eq_false : e.busy = false ↔ e.phase = .idle := by
  unfold Engine.busy
  cases h : e.phase <;> simp

/-- Recording an error, said once: with none recorded it is recorded whole, else only MORE is set. -/
theorem Engine.raiseError_cases (code : ErrorCode) (idx : BitVec 12) (v : BitVec p.WD) :
    (e.errCode = .noError ∧ e.raiseError code idx v = { e with errCode := code, errIdx := idx, errData := v }) ∨
    (e.errCode ≠ .noError ∧ e.raiseError code idx v = { e with errMore := true }) := by
  unfold Engine.raiseError
  cases h : e.errCode <;> simp

/-- Acceptance, said once: the phase and DONE, and KEY_VALID for SCHED. -/
theorem Engine.accept_eq (cmd : BitVec 32) (i : Instr) (lat : Nat) :
    e.accept cmd i lat =
      { e with phase := .run cmd lat, done := false, keyValid := e.keyValid && !(i == Instr.sched) } := by
  cases i <;> simp [Engine.accept, Engine.acceptEffect]

end

/-! ### The register map -/

section
variable (p : Params)

@[simp] theorem Reg.ofIndex_id : Reg.ofIndex p 0x000#12 = .id := rfl
@[simp] theorem Reg.ofIndex_ctrl : Reg.ofIndex p 0x001#12 = .ctrl := rfl
@[simp] theorem Reg.ofIndex_status : Reg.ofIndex p 0x002#12 = .status := rfl
@[simp] theorem Reg.ofIndex_error : Reg.ofIndex p 0x003#12 = .error := rfl
@[simp] theorem Reg.ofIndex_errdata : Reg.ofIndex p 0x004#12 = .errdata := rfl
@[simp] theorem Reg.ofIndex_cmd : Reg.ofIndex p 0x005#12 = .cmd := rfl
@[simp] theorem Reg.ofIndex_keylen : Reg.ofIndex p 0x006#12 = .keylen := rfl
@[simp] theorem Reg.ofIndex_keydata : Reg.ofIndex p 0x007#12 = .keydata := rfl
@[simp] theorem Reg.ofIndex_keycnt : Reg.ofIndex p 0x008#12 = .keycnt := rfl
@[simp] theorem Reg.ofIndex_blkA : Reg.ofIndex p 0x010#12 = .blk .A := rfl
@[simp] theorem Reg.ofIndex_blkB : Reg.ofIndex p 0x011#12 = .blk .B := rfl
@[simp] theorem Reg.ofIndex_blkC : Reg.ofIndex p 0x012#12 = .blk .C := rfl
@[simp] theorem Reg.ofIndex_blkD : Reg.ofIndex p 0x013#12 = .blk .D := rfl

/-- Round key `i` stands at index 0x100 + i. -/
theorem Reg.ofIndex_skey {i : Nat} (h : i < p.T) :
    Reg.ofIndex p (0x100#12 + BitVec.ofNat 12 i) = .skey ⟨i, h⟩ := by
  have hr := p.rounds.isLt
  have hn : (0x100#12 + BitVec.ofNat 12 i).toNat = 0x100 + i := by
    simp only [Params.T, Params.R] at h
    simp
    omega
  unfold Reg.ofIndex
  rw [dif_pos ⟨by omega, by omega⟩]
  simp only [Reg.skey.injEq, Fin.mk.injEq]
  omega

theorem Reg.fixed_of_unmapped {n : Nat} (h : (0x009 ≤ n ∧ n < 0x010) ∨ 0x014 ≤ n) : Reg.fixed p n = .unmapped := by
  unfold Reg.fixed
  iterate 13 rw [if_neg (by omega)]

/-- Every index outside the map. -/
theorem Reg.ofIndex_unmapped {idx : BitVec 12}
    (h : (0x008 < idx.toNat ∧ idx.toNat < 0x010) ∨ (0x013 < idx.toNat ∧ idx.toNat < 0x100) ∨
      0x100 + p.T ≤ idx.toNat) : Reg.ofIndex p idx = .unmapped := by
  unfold Reg.ofIndex
  rw [dif_neg (by omega), Reg.fixed_of_unmapped p (by omega)]

/-- Every index is one of the map's or outside it: the case split for a statement about all indices. -/
theorem Reg.ofIndex_split (idx : BitVec 12) :
    idx ∈ [0x000#12, 0x001#12, 0x002#12, 0x003#12, 0x004#12, 0x005#12, 0x006#12, 0x007#12, 0x008#12, 0x010#12,
      0x011#12, 0x012#12, 0x013#12] ∨
    (∃ i, ∃ _ : i < p.T, idx = 0x100#12 + BitVec.ofNat 12 i) ∨
    ((0x008 < idx.toNat ∧ idx.toNat < 0x010) ∨ (0x013 < idx.toNat ∧ idx.toNat < 0x100) ∨
      0x100 + p.T ≤ idx.toNat) := by
  by_cases h : (0x008 < idx.toNat ∧ idx.toNat < 0x010) ∨ (0x013 < idx.toNat ∧ idx.toNat < 0x100) ∨
      0x100 + p.T ≤ idx.toNat
  · exact .inr (.inr h)
  · by_cases hs : 0x100 ≤ idx.toNat
    · refine .inr (.inl ⟨idx.toNat - 0x100, by omega, ?_⟩)
      apply BitVec.eq_of_toNat_eq
      have := idx.isLt
      simp
      omega
    · left
      have hm : ∀ n, n < 0x014 → ¬ (0x008 < n ∧ n < 0x010) → BitVec.ofNat 12 n ∈
          [0x000#12, 0x001#12, 0x002#12, 0x003#12, 0x004#12, 0x005#12, 0x006#12, 0x007#12, 0x008#12, 0x010#12,
            0x011#12, 0x012#12, 0x013#12] := by decide
      have := hm idx.toNat (by omega) (by omega)
      rwa [BitVec.ofNat_toNat, BitVec.setWidth_eq] at this

end

/-! ### Register writes -/

section
variable {p : Params} (e : Engine p) (lat : Nat) (idx : BitVec 12) (v : BitVec p.WD)

/-- A write no check stops is carried out. -/
theorem Engine.regWrite_accepted (h : e.writeCheck idx v = .noError) :
    e.regWrite lat idx v = e.writeEffect lat idx v := by
  simp [Engine.regWrite, h]

/-- A write a check stops is rejected with that check's code. -/
theorem Engine.regWrite_rejected (h : e.writeCheck idx v ≠ .noError) :
    e.regWrite lat idx v = e.raiseError (e.writeCheck idx v) idx v := by
  unfold Engine.regWrite
  cases hc : e.writeCheck idx v <;> simp_all

end

/-! ### Free values -/

theorem latency_pos (n : Nat) : 1 ≤ latency n := by simp [latency]

/-! ### Meanings: every one completes at once, by replacing the engine only -/

/-- The engine a command leaves at completion, before the end of its busy period. -/
def effectOf (i : Instr) {p : Params} (e : Engine p) : Engine p :=
  match i with
  | .nop => e
  | .keyclr => { e with key := fileZero _ 8, keyCount := 0 }
  | .sched =>
    { e with
      skey := keySchedule p e.key e.keyLen.toNat
      key := fileZero _ 8
      lwords := fileZero _ _
      keyCount := 0
      keyValid := true }
  | .enc => { e with blk := encrypt p.LGW p.R e.skey e.blk }
  | .dec => { e with blk := decrypt p.LGW p.R e.skey e.blk }
  | .rotl rd rs1 rs2 => e.setBlk rd (rotl (e.blk.get rs1) (e.blk.get rs2).toNat)
  | .rotr rd rs1 rs2 => e.setBlk rd (rotr (e.blk.get rs1) (e.blk.get rs2).toNat)
  | .rotli rd rs1 imm => e.setBlk rd (rotl (e.blk.get rs1) imm)
  | .rotri rd rs1 imm => e.setBlk rd (rotr (e.blk.get rs1) imm)
  | .mulmix rd rs1 => e.setBlk rd (mulmix (e.blk.get rs1))

/-- Every command completes with its effect and nothing else. -/
theorem exec_eq (i : Instr) (s : State) : exec i s = .next (s.complete (effectOf i s.eng)) := by
  cases i <;> rfl

/-! ### Steps -/

theorem step_nil {s : State} (h : s.inputs = []) : step s = s.engineStep := by
  obtain ⟨p, e, r, d, q, n⟩ := s
  dsimp only at h
  subst h
  rfl

theorem step_cons {s : State} {ev : Event s.params} {rest : List (Event s.params)} (h : s.inputs = ev :: rest) :
    step s = State.handle { s with inputs := rest } ev := by
  obtain ⟨p, e, r, d, q, n⟩ := s
  dsimp only at ev rest h
  subst h
  rfl

/-- An engine step, said once. -/
theorem engineStep_cases (s : State) :
    ((s.rstN = false ∨ s.eng.phase = .idle) ∧ s.engineStep = .next s) ∨
    (∃ w n, s.rstN = true ∧ s.eng.phase = .run w n ∧ n ≤ 1 ∧ s.engineStep = s.completePending w) ∨
    (∃ w n, s.rstN = true ∧ s.eng.phase = .run w (n + 2) ∧
      s.engineStep = .next { s with eng := { s.eng with phase := .run w (n + 1) } }) := by
  unfold State.engineStep
  cases hr : s.rstN with
  | false => exact .inl ⟨.inl rfl, rfl⟩
  | true =>
    cases hp : s.eng.phase with
    | idle => exact .inl ⟨.inr rfl, rfl⟩
    | run w n =>
      match n with
      | 0 => exact .inr (.inl ⟨w, 0, rfl, rfl, by omega, rfl⟩)
      | 1 => exact .inr (.inl ⟨w, 1, rfl, rfl, by omega, rfl⟩)
      | n + 2 => exact .inr (.inr ⟨w, n, rfl, rfl, by simp⟩)

/-! ### Runs -/

theorem run_zero (s : State) : Host.Core.run Sys2Proof.core 0 s = .next s := rfl

theorem run_succ_of_next {s t : State} (k : Nat) (h : step s = .next t) :
    Host.Core.run Sys2Proof.core (k + 1) s = Host.Core.run Sys2Proof.core k t := by
  have h' : Sys2Proof.core.step s = .next t := h
  simp only [Host.Core.run, h']

end Sys2Proof.Machine
end

