-- ==== Sys2Proof/Laws/PerInstr.lean ====
section
/-! SUPPORT. Laws that hold of every command, one lemma per constructor. -/

namespace Sys2Proof.Laws

/-- The word a command encodes to is one of its own row's words in the opcode map (R67). -/
def EncodesInOwnRow.Statement (i : Instr) : Prop := i.row.covers (encode i) = true

theorem EncodesInOwnRow.nop : EncodesInOwnRow.Statement .nop := by
  show _ = true; decide
theorem EncodesInOwnRow.keyclr : EncodesInOwnRow.Statement .keyclr := by
  show _ = true; decide
theorem EncodesInOwnRow.sched : EncodesInOwnRow.Statement .sched := by
  show _ = true; decide
theorem EncodesInOwnRow.enc : EncodesInOwnRow.Statement .enc := by
  show _ = true; decide
theorem EncodesInOwnRow.dec : EncodesInOwnRow.Statement .dec := by
  show _ = true; decide
theorem EncodesInOwnRow.rotl (rd rs1 rs2 : BlkReg) : EncodesInOwnRow.Statement (.rotl rd rs1 rs2) := by
  show _ = true; cases rd <;> cases rs1 <;> cases rs2 <;> decide
theorem EncodesInOwnRow.rotr (rd rs1 rs2 : BlkReg) : EncodesInOwnRow.Statement (.rotr rd rs1 rs2) := by
  show _ = true; cases rd <;> cases rs1 <;> cases rs2 <;> decide

theorem EncodesInOwnRow.rotli (rd rs1 : BlkReg) (imm : Nat) : EncodesInOwnRow.Statement (.rotli rd rs1 imm) := by
  simp only [EncodesInOwnRow.Statement, OpcodeRow.covers, Instr.row, encode]
  generalize BitVec.ofNat 6 imm = k
  cases rd <;> cases rs1 <;> (revert k; decide)
theorem EncodesInOwnRow.rotri (rd rs1 : BlkReg) (imm : Nat) : EncodesInOwnRow.Statement (.rotri rd rs1 imm) := by
  simp only [EncodesInOwnRow.Statement, OpcodeRow.covers, Instr.row, encode]
  generalize BitVec.ofNat 6 imm = k
  cases rd <;> cases rs1 <;> (revert k; decide)
theorem EncodesInOwnRow.mulmix (rd rs1 : BlkReg) : EncodesInOwnRow.Statement (.mulmix rd rs1) := by
  show _ = true; cases rd <;> cases rs1 <;> decide

end Sys2Proof.Laws
end

