-- ==== Sys2Proof/Laws/Steps.lean ====
section
/-! SUPPORT. What a register write can do to the engine, and what a step can do to the state, each said once. -/

namespace Sys2Proof.Machine

/-- A register write, said once: rejected, without effect, or one register's effect. -/
theorem Engine.regWrite_cases {p : Params} (e : Engine p) (lat : Nat) (idx : BitVec 12) (v : BitVec p.WD) :
    (e.writeCheck idx v ≠ .noError ∧ e.regWrite lat idx v = e.raiseError (e.writeCheck idx v) idx v) ∨
    e.regWrite lat idx v = e ∨
    (idx = 0x001 ∧ e.regWrite lat idx v = e.writeCtrl v) ∨
    (idx = 0x002 ∧ e.regWrite lat idx v = e.writeStatus v) ∨
    (idx = 0x003 ∧ e.regWrite lat idx v = e.clearError) ∨
    (∃ i, idx = 0x005 ∧ e.busy = false ∧ decode (v.setWidth 32) = .ok i ∧ e.issueCheck i = .noError ∧
      e.regWrite lat idx v = e.accept (v.setWidth 32) i lat) ∨
    (idx = 0x006 ∧ e.busy = false ∧ (v.setWidth 32).toNat ≤ p.B_MAX ∧ e.regWrite lat idx v = e.writeKeylen v) ∨
    (idx = 0x007 ∧ e.busy = false ∧ e.keyCount.toNat ≠ p.B_MAX ∧ e.regWrite lat idx v = e.writeKeydata v) ∨
    (∃ r, Reg.ofIndex p idx = .blk r ∧ e.busy = false ∧ e.regWrite lat idx v = e.writeBlk r v) := by
  by_cases hc : e.writeCheck idx v = .noError
  · right
    rw [Engine.regWrite_accepted _ _ _ _ hc]
    rcases Reg.ofIndex_split p idx with h | ⟨i, hi, rfl⟩ | h
    · simp only [List.mem_cons, List.not_mem_nil, or_false] at h
      rcases h with rfl | rfl | rfl | rfl | rfl | rfl | rfl | rfl | rfl | h
      · exact .inl rfl
      · exact .inr (.inl ⟨rfl, rfl⟩)
      · exact .inr (.inr (.inl ⟨rfl, rfl⟩))
      · exact .inr (.inr (.inr (.inl ⟨rfl, rfl⟩)))
      · exact .inl rfl
      · refine .inr (.inr (.inr (.inr (.inl ?_))))
        have hc' : e.cmdCheck v = .noError := hc
        show ∃ i, _ ∧ _ ∧ _ ∧ _ ∧ e.writeCmd lat v = _
        unfold Engine.cmdCheck at hc'
        unfold Engine.writeCmd
        cases hb : e.busy with
        | true => simp [hb] at hc'
        | false =>
          cases hd : decode (v.setWidth 32) with
          | error r => simp [hb, hd] at hc'
          | ok i => exact ⟨i, rfl, rfl, rfl, by simpa [hb, hd] using hc', rfl⟩
      · refine .inr (.inr (.inr (.inr (.inr (.inl ?_)))))
        have hc' : e.keylenCheck v = .noError := hc
        unfold Engine.keylenCheck at hc'
        cases hb : e.busy with
        | true => simp [hb] at hc'
        | false =>
          by_cases hr : (v.setWidth 32).toNat > p.B_MAX
          · simp only [hb, hr] at hc'
            cases hc'
          · exact ⟨rfl, rfl, Nat.le_of_not_lt hr, rfl⟩
      · refine .inr (.inr (.inr (.inr (.inr (.inr (.inl ?_))))))
        have hc' : e.keydataCheck = .noError := hc
        unfold Engine.keydataCheck at hc'
        cases hb : e.busy with
        | true => simp [hb] at hc'
        | false =>
          by_cases hr : e.keyCount.toNat = p.B_MAX
          · simp only [hb, hr] at hc'
            cases hc'
          · exact ⟨rfl, rfl, hr, rfl⟩
      · exact .inl rfl
      · refine .inr (.inr (.inr (.inr (.inr (.inr (.inr ?_))))))
        have hr : ∃ r, Reg.ofIndex p idx = .blk r := by
          rcases h with rfl | rfl | rfl | rfl <;> exact ⟨_, rfl⟩
        obtain ⟨r, hr⟩ := hr
        unfold Engine.writeCheck Engine.blkCheck at hc
        unfold Engine.writeEffect
        rw [hr] at hc ⊢
        refine ⟨r, rfl, ?_, rfl⟩
        cases hb : e.busy with
        | true => simp [hb] at hc
        | false => rfl
    · left
      unfold Engine.writeEffect
      rw [Reg.ofIndex_skey p hi]
    · left
      unfold Engine.writeEffect
      rw [Reg.ofIndex_unmapped p h]
  · exact .inl ⟨hc, Engine.regWrite_rejected _ _ _ _ hc⟩

/-- A step to a next state, said once: the engine is left alone, counts, completes a command, takes a host write, or is
reset. -/
theorem step_next_cases {s t : State} (h : step s = .next t) :
    (∃ r d q n, (r = true ∨ r = s.rstN) ∧ t = { s with rstN := r, hRdata := d, inputs := q, draws := n }) ∨
    (∃ w n, s.rstN = true ∧ (s.inputs = [] ∨ s.inputs.head? = some .engine) ∧ s.eng.phase = .run w (n + 2) ∧
      t = { s with eng := { s.eng with phase := .run w (n + 1) }, inputs := s.inputs.tail }) ∨
    (∃ w n i, s.rstN = true ∧ (s.inputs = [] ∨ s.inputs.head? = some .engine) ∧ s.eng.phase = .run w n ∧
      n ≤ 1 ∧ decode w = .ok i ∧ t = { s with eng := (effectOf i s.eng).finish, inputs := s.inputs.tail }) ∨
    (∃ lat idx v, s.rstN = true ∧ 1 ≤ lat ∧
      (s.inputs.head? = some (.host (.write idx v)) ∨
        ∃ b, s.inputs.head? = some (.bus b) ∧ b.bind s.params = some (.write idx v)) ∧
      t = { s with
        eng := s.eng.regWrite lat idx v, hRdata := none, inputs := s.inputs.tail, draws := s.draws + 1 }) ∨
    (s.inputs.head? = some .assertReset ∧
      t = { s with
        eng := Engine.reset s.params, rstN := false, hRdata := none, inputs := s.inputs.tail }) := by
  have host (a : Access s.params) (rest : List (Event s.params))
      (ha : ∀ idx v, a = .write idx v → s.inputs.head? = some (.host (.write idx v)) ∨
        ∃ b, s.inputs.head? = some (.bus b) ∧ b.bind s.params = some (.write idx v))
      (hrest : s.inputs.tail = rest)
      (ht : t = State.hostStep { s with inputs := rest } a) :
      (∃ r d q n, (r = true ∨ r = s.rstN) ∧ t = { s with rstN := r, hRdata := d, inputs := q, draws := n }) ∨
      (∃ lat idx v, s.rstN = true ∧ 1 ≤ lat ∧
        (s.inputs.head? = some (.host (.write idx v)) ∨
          ∃ b, s.inputs.head? = some (.bus b) ∧ b.bind s.params = some (.write idx v)) ∧
        t = { s with
          eng := s.eng.regWrite lat idx v, hRdata := none, inputs := s.inputs.tail, draws := s.draws + 1 }) := by
    subst ht
    cases a with
    | read idx => exact .inl ⟨_, _, _, _, .inr rfl, rfl⟩
    | write idx v =>
      cases hr : s.rstN with
      | false => exact .inl ⟨_, none, rest, s.draws + 1, .inr rfl, by simp [State.hostStep, State.hostWrite]⟩
      | true =>
        exact .inr ⟨latency s.draws, idx, v, rfl, latency_pos _, ha idx v rfl, by
          simp [State.hostStep, State.hostWrite, hrest]⟩
  have engine (hn : s.inputs = [] ∨ s.inputs.head? = some .engine)
      (h : State.engineStep { s with inputs := s.inputs.tail } = .next t) :
      (∃ r d q n, (r = true ∨ r = s.rstN) ∧ t = { s with rstN := r, hRdata := d, inputs := q, draws := n }) ∨
      (∃ w n, s.rstN = true ∧ (s.inputs = [] ∨ s.inputs.head? = some .engine) ∧ s.eng.phase = .run w (n + 2) ∧
        t = { s with eng := { s.eng with phase := .run w (n + 1) }, inputs := s.inputs.tail }) ∨
      (∃ w n i, s.rstN = true ∧ (s.inputs = [] ∨ s.inputs.head? = some .engine) ∧ s.eng.phase = .run w n ∧
        n ≤ 1 ∧ decode w = .ok i ∧ t = { s with eng := (effectOf i s.eng).finish, inputs := s.inputs.tail }) := by
    rcases engineStep_cases { s with inputs := s.inputs.tail } with
      ⟨_, h'⟩ | ⟨w, n, hr, hp, hle, h'⟩ | ⟨w, n, hr, hp, h'⟩
    · rw [h'] at h
      cases h
      exact .inl ⟨_, _, _, _, .inr rfl, rfl⟩
    · rw [h'] at h
      unfold State.completePending at h
      cases hd : decode w with
      | error r => simp [hd] at h
      | ok i =>
        rw [hd] at h
        dsimp only at h
        rw [exec_eq] at h
        cases h
        exact .inr (.inr ⟨w, n, i, hr, hn, hp, hle, hd, rfl⟩)
    · rw [h'] at h
      cases h
      exact .inr (.inl ⟨w, n, hr, hn, hp, rfl⟩)
  have up {A B C D E : Prop} : A ∨ B ∨ C → A ∨ B ∨ C ∨ D ∨ E := by tauto
  have mid {A B C D E : Prop} : A ∨ D → A ∨ B ∨ C ∨ D ∨ E := by tauto
  obtain hq | ⟨ev, rest, hq⟩ : s.inputs = [] ∨ ∃ ev rest, s.inputs = ev :: rest := by
    cases s.inputs <;> simp
  · rw [step_nil hq] at h
    refine up (engine (.inl hq) ?_)
    rw [← h]
    obtain ⟨p, e, r, d, q, n⟩ := s
    dsimp only at hq
    subst hq
    rfl
  · rw [step_cons hq] at h
    have hhead : s.inputs.head? = some ev := by rw [hq]; rfl
    have htail : s.inputs.tail = rest := by rw [hq]; rfl
    cases ev with
    | engine => exact up (engine (.inr hhead) (by rw [htail]; exact h))
    | host a =>
      cases h
      exact mid (host a rest (fun idx v ha => .inl (by rw [hhead, ha])) htail rfl)
    | bus b =>
      simp only [State.handle] at h
      cases hb : b.bind s.params with
      | none => simp [hb] at h
      | some a =>
        rw [hb] at h
        cases h
        exact mid (host a rest (fun idx v ha => .inr ⟨b, hhead, by rw [hb, ha]⟩) htail rfl)
    | assertReset =>
      cases h
      exact .inr (.inr (.inr (.inr ⟨hhead, by rw [htail]; rfl⟩)))
    | releaseReset =>
      cases h
      exact .inl ⟨_, _, _, _, .inl rfl, rfl⟩
    | waitIdle =>
      cases h
      left
      unfold State.waitStep
      dsimp only
      split
      · exact ⟨_, _, _, _, .inr rfl, rfl⟩
      · exact ⟨_, _, _, _, .inr rfl, rfl⟩

end Sys2Proof.Machine
end

