-- ==== Sys2Proof/Machine/Assembler.lean ====
section
/-! DEFINITION. Command mnemonics as text (30_encoding.md R71): a command's assembler text, and reading one from
characters. Notation only: no step uses it (assumption 17). -/

namespace Sys2Proof.Machine

/-- The name of a block register (R71). -/
def regText : BlkReg → String
  | .A => "A"
  | .B => "B"
  | .C => "C"
  | .D => "D"

/-- A command's assembler text, the destination first, the immediate in decimal (R71). -/
def commandText : Instr → String
  | .nop => "NOP"
  | .keyclr => "KEYCLR"
  | .sched => "SCHED"
  | .enc => "ENC"
  | .dec => "DEC"
  | .rotl rd rs1 rs2 => "ROTL " ++ regText rd ++ ", " ++ regText rs1 ++ ", " ++ regText rs2
  | .rotr rd rs1 rs2 => "ROTR " ++ regText rd ++ ", " ++ regText rs1 ++ ", " ++ regText rs2
  | .rotli rd rs1 imm => "ROTLI " ++ regText rd ++ ", " ++ regText rs1 ++ ", " ++ toString imm
  | .rotri rd rs1 imm => "ROTRI " ++ regText rd ++ ", " ++ regText rs1 ++ ", " ++ toString imm
  | .mulmix rd rs1 => "MULMIX " ++ regText rd ++ ", " ++ regText rs1

/-- The characters between one `sep` and the next. -/
def splitChars (sep : Char) : List Char → List (List Char)
  | [] => [[]]
  | c :: cs =>
    if c = sep then [] :: splitChars sep cs
    else match splitChars sep cs with
      | [] => [[c]]
      | t :: ts => (c :: t) :: ts

/-- Spaces at either end dropped. -/
def trimChars (cs : List Char) : List Char :=
  ((cs.dropWhile (· = ' ')).reverse.dropWhile (· = ' ')).reverse

/-- A register operand: A to D, or its alias BLK0 to BLK3 (R71). -/
def readReg : List Char → Option BlkReg
  | ['A'] => some .A
  | ['B'] => some .B
  | ['C'] => some .C
  | ['D'] => some .D
  | ['B', 'L', 'K', '0'] => some .A
  | ['B', 'L', 'K', '1'] => some .B
  | ['B', 'L', 'K', '2'] => some .C
  | ['B', 'L', 'K', '3'] => some .D
  | _ => none

/-- The value of a digit in base `base` (10 or 16, letters in either case). -/
def readDigit (base : Nat) (c : Char) : Option Nat :=
  let n := c.toNat
  let d := if 48 ≤ n ∧ n ≤ 57 then n - 48
    else if 65 ≤ n ∧ n ≤ 70 then n - 55
    else if 97 ≤ n ∧ n ≤ 102 then n - 87
    else base
  if d < base then some d else none

/-- Digits read on from the value `acc`. -/
def readDigits (base : Nat) : List Char → Nat → Option Nat
  | [], acc => some acc
  | c :: cs, acc =>
    match readDigit base c with
    | none => none
    | some d => readDigits base cs (acc * base + d)

/-- An immediate: a decimal or `0x` hexadecimal number from 0 to 63 (R71). -/
def readImm (t : List Char) : Option Nat :=
  let value := match t with
    | [] => none
    | '0' :: 'x' :: [] => none
    | '0' :: 'x' :: ds => readDigits 16 ds 0
    | ds => readDigits 10 ds 0
  match value with
  | none => none
  | some n => if n ≤ 63 then some n else none

/-- Two register operands. -/
def readTwo (mk : BlkReg → BlkReg → Instr) (x y : List Char) : Option Instr :=
  match readReg x, readReg y with
  | some rd, some rs1 => some (mk rd rs1)
  | _, _ => none

/-- Three register operands. -/
def readThree (mk : BlkReg → BlkReg → BlkReg → Instr) (x y z : List Char) : Option Instr :=
  match readReg x, readReg y, readReg z with
  | some rd, some rs1, some rs2 => some (mk rd rs1 rs2)
  | _, _, _ => none

/-- Two register operands and an immediate. -/
def readTwoImm (mk : BlkReg → BlkReg → Nat → Instr) (x y z : List Char) : Option Instr :=
  match readReg x, readReg y, readImm z with
  | some rd, some rs1, some imm => some (mk rd rs1 imm)
  | _, _, _ => none

/-- A command from its mnemonic and operands (R71). -/
def readParts (mnemonic : List Char) (operands : List (List Char)) : Option Instr :=
  match mnemonic, operands with
  | ['N', 'O', 'P'], [] => some .nop
  | ['K', 'E', 'Y', 'C', 'L', 'R'], [] => some .keyclr
  | ['S', 'C', 'H', 'E', 'D'], [] => some .sched
  | ['E', 'N', 'C'], [] => some .enc
  | ['D', 'E', 'C'], [] => some .dec
  | ['R', 'O', 'T', 'L'], [x, y, z] => readThree .rotl x y z
  | ['R', 'O', 'T', 'R'], [x, y, z] => readThree .rotr x y z
  | ['R', 'O', 'T', 'L', 'I'], [x, y, z] => readTwoImm .rotli x y z
  | ['R', 'O', 'T', 'R', 'I'], [x, y, z] => readTwoImm .rotri x y z
  | ['M', 'U', 'L', 'M', 'I', 'X'], [x, y] => readTwo .mulmix x y
  | _, _ => none

/-- A command from its characters: the mnemonic, then the operands separated by commas (R71). -/
def readCommand (line : List Char) : Option Instr :=
  let body := trimChars line
  let mnemonic := body.takeWhile (· ≠ ' ')
  let rest := trimChars (body.drop mnemonic.length)
  readParts mnemonic (if rest = [] then [] else (splitChars ',' rest).map trimChars)

end Sys2Proof.Machine
end

