-- ==== Sys2Proof/Tests/Slice0.lean ====
section
/-! SUPPORT. The model's own tests: expected values from spec/95_test_vectors.md, and a witness for the hypotheses of
every statement that has any. -/

open Sys2Proof Sys2Proof.Machine Sys2Proof.Claims

namespace Sys2Proof.Tests

-- One theorem after another: many kernel evaluations at once would each hold a thread.
set_option Elab.async false

/-! ### Helpers -/

/-- The engine of an instance right after reset, with a block in its block registers. -/
def engineWith (p : Params) (a b c d : Nat) : Engine p :=
  { Engine.reset p with
    blk := ⟨BitVec.ofNat _ a, BitVec.ofNat _ b, BitVec.ofNat _ c, BitVec.ofNat _ d⟩ }

/-- A state of an instance with an engine and the coming events. -/
def stateWith {p : Params} (e : Engine p) (inputs : List (Event p)) : State :=
  { params := p, eng := e, rstN := true, hRdata := none, inputs := inputs, draws := 0 }

/-- The engine busy with a command word, `n` engine steps left. -/
def running {p : Params} (e : Engine p) (w : BitVec 32) (n : Nat) : Engine p := { e with phase := .run w n }

/-- The engine with key bytes appended by KEYDATA. -/
def feed {p : Params} (e : Engine p) : List Nat → Engine p
  | [] => e
  | x :: xs => feed (e.writeKeydata (BitVec.ofNat _ x)) xs

/-- The engine with a key loaded and KEYLEN set to its length. -/
def keyed (p : Params) (bytes : List Nat) : Engine p :=
  { feed (Engine.reset p) bytes with keyLen := BitVec.ofNat 8 bytes.length }

/-- The engine with the key schedule of a key done. -/
def scheduled (p : Params) (bytes : List Nat) : Engine p := (effectOf .sched (keyed p bytes)).finish

/-- What a step leaves, read by `f`; 0 where it stops. -/
def after (f : State → Nat) : Host.Outcome State Fault Refusal → Nat
  | .next s => f s
  | .fault _ => 0
  | .refused _ => 0

/-- The block registers as numbers. -/
def blockOf {p : Params} (e : Engine p) : List Nat := [e.blk.a.toNat, e.blk.b.toNat, e.blk.c.toNat, e.blk.d.toNat]

/-- The block one command word leaves, run from its last engine step. -/
def blockAfter {p : Params} (e : Engine p) (word : Nat) : List Nat :=
  match step ((stateWith e []).withFetchWord 32 word) with
  | .next s => blockOf s.eng
  | .fault _ => []
  | .refused _ => []

/-- A read of a register, as a number. -/
def rd {p : Params} (e : Engine p) (idx : BitVec 12) : Nat := (e.regRead idx).toNat

/-- A write of a register. -/
def wr {p : Params} (e : Engine p) (idx : BitVec 12) (v : Nat) : Engine p := e.regWrite 1 idx (BitVec.ofNat _ v)

/-- The reference instance, with the table of the key 00 x 16 (V-KS-2). -/
def zeroKey : List Nat := List.replicate 16 0

/-- The instance of V-ENC-12: W = 16, R = 12, B_MAX = 8. -/
def small16 : Params := { width := defaultWidth16, rounds := 12, keyMax := 8, binding := .default }

/-- The instance of V-ENC-15: W = 64, R = 1. -/
def wide64 : Params := { width := defaultWidth64, rounds := 1, keyMax := 32, binding := .default }

/-- The same on a 32-bit bus, whose platform binds CMD as two halves, low half first, and a row that is out of order. -/
def narrow64 : Params :=
  { wide64 with binding := .platform [⟨[⟨0x28, 4⟩, ⟨0x2C, 4⟩], 0x005⟩, ⟨[⟨0x34, 4⟩, ⟨0x30, 4⟩], 0x006⟩] }

/-- The instance with no rounds of V-ENC-8. -/
def noRounds : Params := { width := .w32, rounds := 0, keyMax := 32, binding := .default }

abbrev ref : Params := Params.reference

/-! ### WellFormed and elaboration refuse what they check -/

theorem test_imm_64_refused :
    (Instr.rotli .A .B 64).wellFormed = false ∧ (Instr.rotri .A .B 64).wellFormed = false := by decide
theorem test_imm_63_accepted :
    (Instr.rotli .A .B 63).wellFormed = true ∧ (Instr.rotri .A .B 63).wellFormed = true := by decide
theorem test_elaborate_refuses :
    Params.elaborate 8 20 32 0 0 .default = none ∧ Params.elaborate 32 256 32 0 0 .default = none ∧
    Params.elaborate 32 20 256 0 0 .default = none ∧ Params.elaborate 32 20 32 0 0 .default = some ref := by decide

/-! ### Decoding: V-ENCD-1 and V-ENCD-2, each word bit by bit as [31:16] IMM RS2 RS1 RD OP -/

theorem test_decode_nop : decode 0b0000000000000000_000000_00_00_00_0000#32 = .ok .nop := rfl
theorem test_decode_keyclr : decode 0b0000000000000000_000000_00_00_00_0001#32 = .ok .keyclr := rfl
theorem test_decode_sched : decode 0b0000000000000000_000000_00_00_00_0010#32 = .ok .sched := rfl
theorem test_decode_enc : decode 0b0000000000000000_000000_00_00_00_0011#32 = .ok .enc := rfl
theorem test_decode_dec : decode 0b0000000000000000_000000_00_00_00_0100#32 = .ok .dec := rfl
theorem test_decode_rotl : decode 0b0000000000000000_000000_01_00_10_0101#32 = .ok (.rotl .C .A .B) := rfl
theorem test_decode_rotr : decode 0b0000000000000000_000000_01_00_11_0110#32 = .ok (.rotr .D .A .B) := rfl
theorem test_decode_rotli : decode 0b0000000000000000_111111_00_10_11_0111#32 = .ok (.rotli .D .C 63) := rfl
theorem test_decode_rotri : decode 0b0000000000000000_100000_00_11_10_1000#32 = .ok (.rotri .C .D 32) := rfl
theorem test_decode_mulmix : decode 0b0000000000000000_000000_00_10_11_1001#32 = .ok (.mulmix .D .C) := rfl

theorem test_illegal_opcode :
    decode 0x0000000A#32 = .error .reservedOpcode ∧ decode 0x0000000F#32 = .error .reservedOpcode := ⟨rfl, rfl⟩
theorem test_illegal_reserved :
    decode 0x00010003#32 = .error .reservedBits ∧ decode 0x80000000#32 = .error .reservedBits ∧
    decode 0xFFFFFFFF#32 = .error .reservedBits := ⟨rfl, rfl, rfl⟩
theorem test_illegal_unused :
    decode 0x00000013#32 = .error .unusedField ∧ decode 0x00000010#32 = .error .unusedField ∧
    decode 0x00000405#32 = .error .unusedField ∧ decode 0x00000107#32 = .error .unusedField ∧
    decode 0x00000109#32 = .error .unusedField ∧ decode 0x00000409#32 = .error .unusedField :=
  ⟨rfl, rfl, rfl, rfl, rfl, rfl⟩
theorem test_table_word :
    decodeTableWord 32 0x0000FCB7 = some (.rotli .D .C 63) ∧ decodeTableWord 32 0x0000000A = none := ⟨rfl, rfl⟩
theorem test_assembler :
    commandText (.rotl .C .A .B) = "ROTL C, A, B" ∧
    readCommand ['R', 'O', 'T', 'L', 'I', ' ', 'B', ',', ' ', 'B', 'L', 'K', '0', ',', ' ', '0', 'x', '5'] =
      some (.rotli .B .A 5) ∧
    readCommand ['R', 'O', 'T', 'R', 'I', ' ', 'A', ',', ' ', 'A', ',', ' ', '6', '4'] = none := by decide

/-! ### The datapaths (V-ROT-1 to V-ROT-3, V-MIX-1 to V-MIX-3) -/

theorem test_rotl32 : rotl 0xDEADBEEF#32 0x123 = 0xF56DF77E#32 ∧ rotl 0x12345678#32 0x20 = 0x12345678#32 := by decide
theorem test_rotr32 : rotr 0xDEADBEEF#32 0x123 = 0xFBD5B7DD#32 ∧ rotr 0x12345678#32 0x21 = 0x091A2B3C#32 := by decide
theorem test_rot16 : rotl 0x1234#16 0x14 = 0x2341#16 ∧ rotr 0x8001#16 0x1 = 0xC000#16 := by decide
theorem test_rot64 :
    rotl 0x0123456789ABCDEF#64 0x3F = 0x8091A2B3C4D5E6F7#64 ∧
    rotr 0x0123456789ABCDEF#64 0x44 = 0xF0123456789ABCDE#64 := by decide
theorem test_mulmix_widths :
    mulmix 0x12345678#32 = 0x4E1E06F8#32 ∧ mulmix 0x1234#16 = 0xC754#16 ∧
    mulmix 0x0123456789ABCDEF#64 = 0xBA6F0978AB911831#64 := by decide
theorem test_mixTerm :
    mixTerm 5 0x9E3779B9#32 = 0x9E89236C#32 ∧ mixTerm 4 0x1234#16 = 0x754C#16 := by decide

/-! ### Commands, one step each (V-CMD-ROT, V-PR, V-KS, V-ENC, V-DEC) -/

theorem test_cmd_nop :
    after (fun s => rd s.eng 0x002) (step ((stateWith { Engine.reset ref with die := true } []).withFetchWord 32 0)) =
      0x0000000A := by decide +kernel
theorem test_cmd_keyclr :
    after (fun s => rd s.eng 0x008 + keyBufferByte s 0)
      (step ((stateWith (keyed ref [1, 2, 3]) []).withFetchWord 32 1)) = 0 := by decide +kernel
theorem test_cmd_rotl_reg :
    blockAfter (engineWith ref 0x12345678 4 0 0) 0x125 = [0x12345678, 4, 0x23456781, 0] := by decide +kernel
theorem test_cmd_rotl_self :
    blockAfter (engineWith ref 0x21 0 0 0) 0x5 = [0x42, 0, 0, 0] := by decide +kernel
theorem test_cmd_rotr_reg :
    blockAfter (engineWith ref 0x12345678 4 0 0) 0x126 = [0x12345678, 4, 0x81234567, 0] := by decide +kernel
theorem test_cmd_rotr_large :
    blockAfter (engineWith ref 0x12345678 0xFFFFFFFF 0 0) 0x106 = [0x2468ACF0, 0xFFFFFFFF, 0, 0] := by decide +kernel
theorem test_cmd_rotli :
    blockAfter (engineWith ref 0x12345678 0 0 0) 0xFC07 = [0x091A2B3C, 0, 0, 0] := by decide +kernel
theorem test_cmd_rotli16 :
    blockAfter (engineWith small16 0x1234 0 0 0) 0x5007 = [0x2341, 0, 0, 0] := by decide +kernel
theorem test_cmd_rotri :
    blockAfter (engineWith ref 0x80000001 0 0 0) 0x408 = [0xC0000000, 0, 0, 0] := by decide +kernel
theorem test_cmd_rotri_32 :
    blockAfter (engineWith ref 0x12345678 0x9ABCDEF0 0x0F0F0F0F 0) 0x80E8 = [0x12345678, 0x9ABCDEF0, 0, 0] := by
  decide +kernel
theorem test_cmd_mulmix :
    blockAfter (engineWith ref 0 0x12345678 0 0) 0x59 = [0, 0x4E1E06F8, 0, 0] := by decide +kernel
theorem test_cmd_mulmix_frame :
    blockAfter (engineWith ref 0 0 0xFFFFFFFF 0) 0xB9 = [0, 0, 0xFFFFFFFF, 1] := by decide +kernel

/-- V-KS-5: a key that is no multiple of U, and the state SCHED leaves (V-PR-12). -/
theorem test_cmd_sched :
    (fun e => [rd e 0x100, rd e 0x12B, rd e 0x002, rd e 0x008]) (scheduled ref [1, 2, 3, 4, 5]) =
      [0xBA981335, 0x088523E3, 6, 0] := by decide +kernel
/-- V-KS-12: more key words than table words. -/
theorem test_cmd_sched_wraps :
    (fun e => [rd e 0x100, rd e 0x101, rd e 0x102, rd e 0x103]) (scheduled noRounds (List.range 32)) =
      [0x00307027, 0x181416A5, 0xC2758EC1, 0xA45D2D8F] := by decide +kernel
/-- V-KS-1: loading L. -/
theorem test_load_words :
    (loadWord 32 4 (keyed ref [1, 2, 3, 4, 5]).key 5 0).toNat = 0x04030201 ∧
    (loadWord 32 4 (keyed ref [1, 2, 3, 4, 5]).key 5 1).toNat = 0x00000005 ∧
    (loadWord 16 2 (keyed small16 [1, 2, 3]).key 3 1).toNat = 0x0003 := by decide +kernel
/-- V-ENC-3. -/
theorem test_cmd_enc :
    blockAfter
      { scheduled ref [1, 2, 3, 4, 5] with blk := ⟨0x03020100#32, 0x07060504#32, 0x0B0A0908#32, 0x0F0E0D0C#32⟩ } 0x3 =
      [0xC71AF321, 0xB9EEC998, 0x4880338C, 0x9B047F88] := by decide +kernel
/-- V-ENC-12 and V-ENC-15, with the default constants of general knowledge. -/
theorem test_cmd_enc_widths :
    blockAfter (scheduled small16 (List.replicate 8 0)) 0x3 = [0x4047, 0xA635, 0xBB33, 0x7BAC] ∧
    blockAfter (scheduled wide64 []) 0x3 =
      [0x154B8D224191FD7A, 0x0213A2FCB2132853, 0xD7CD3DBF144847B7, 0x34BA2844D264122A] := by decide +kernel
/-- V-DEC-1. -/
theorem test_cmd_dec :
    blockAfter (scheduled ref zeroKey) 0x4 = [0x9E78F2A1, 0xC44F34FC, 0xEEC5BC26, 0x59FF6274] := by decide +kernel
/-- V-ENC-8 read backwards: R = 0. -/
theorem test_cmd_dec_no_rounds :
    blockAfter
      { scheduled noRounds [] with blk := ⟨0x1727B96D#32, 0xD1CE682C#32, 0x3329BB3D#32, 0x71B3F2BF#32⟩ } 0x4 =
      [1, 2, 3, 4] := by decide +kernel

/-! ### The host port (V-PR) -/

/-- V-PR-2 to V-PR-4: NO_KEY, the first error kept, ERROR cleared. -/
theorem test_error_recording :
    let e := wr (Engine.reset ref) 0x005 0x3
    let f := wr e 0x005 0xA
    let g := wr f 0x003 0x12345678
    [rd e 0x003, rd e 0x004, rd f 0x003, rd f 0x004, rd g 0x003, rd g 0x004] =
      [0x503, 3, 0x513, 3, 0, 0] := by decide +kernel
/-- V-PR-5 to V-PR-7: KEYLEN_RANGE, by the whole value. -/
theorem test_keylen_range :
    let e := Engine.reset ref
    [rd (wr e 0x006 33) 0x003, rd (wr e 0x006 0x100) 0x003, rd (wr e 0x006 0x100) 0x006, rd (wr e 0x006 32) 0x006] =
      [0x606, 0x606, 0, 0x20] := by decide +kernel
/-- V-PR-8, V-PR-9: KEYDATA. -/
theorem test_keydata :
    let e := wr (Engine.reset ref) 0x007 0x1AB
    let f := wr (keyed ref (List.replicate 32 0)) 0x007 0x55
    [(fileRead e.key 0).toNat, rd e 0x008, rd f 0x003, rd f 0x004, rd f 0x008] = [0xAB, 1, 0x705, 0x55, 32] := by
  decide +kernel
/-- V-PR-10, V-PR-11: SCHED's check and acceptance. -/
theorem test_sched_issue :
    let e := wr { keyed ref (List.replicate 15 0) with keyLen := 16 } 0x005 2
    let f := wr (keyed ref zeroKey) 0x005 2
    [rd e 0x003, rd e 0x002, rd e 0x008, rd f 0x002] = [0x502, 0, 15, 1] := by decide +kernel
/-- V-PR-13: gated writes while busy. -/
theorem test_gated_writes :
    let e := running (Engine.reset ref) 3 5
    [rd (wr e 0x010 5) 0x003, rd (wr e 0x006 8) 0x003, rd (wr e 0x007 1) 0x003, rd (wr e 0x005 4) 0x003,
      rd (wr e 0x005 0xA) 0x003] = [0x1004, 0x604, 0x704, 0x504, 0x504] := by decide +kernel
/-- V-PR-17, V-PR-18: the error interrupt, masking, and W1C of DONE. -/
theorem test_interrupt_and_done :
    let e := wr (wr (Engine.reset ref) 0x001 2) 0x005 0xF
    let f := wr e 0x001 0
    let d := { Engine.reset ref with done := true }
    [rd e 0x002, rd f 0x002, rd f 0x003, rd (wr d 0x002 0xFFFFFFFD) 0x002, rd (wr d 0x002 0xFFFFFFFF) 0x002] =
      [8, 0, 0x501, 2, 0] := by decide +kernel
/-- V-PR-19, V-PR-1: writes without effect, unmapped reads. -/
theorem test_ignored_writes :
    let e := Engine.reset ref
    (wr e 0x000 0 = e ∧ wr e 0x008 5 = e ∧ wr e 0x100 1 = e ∧ wr e 0x0FF 1 = e) ∧
    [rd e 0x000, rd e 0x009, rd e 0x12C, rd e 0xFFF] = [0x01201420, 0, 0, 0] := by decide +kernel
/-- V-PR-27, V-PR-28: the 16-bit and the 64-bit port. -/
theorem test_other_widths :
    rd (Engine.reset small16) 0x000 = 0x01080C10 ∧
    rd (wr (Engine.reset small16) 0x010 0x12345678) 0x010 = 0x5678 ∧
    rd (wr (Engine.reset wide64) 0x006 0x0000000100000010) 0x006 = 16 ∧
    rd (wr (Engine.reset wide64) 0x005 0x000000010000000A) 0x004 = 0x000000010000000A := by decide +kernel
/-- R53: the halves of a 64-bit register, the low one at the lower address, and the register from them. -/
theorem test_split_register :
    splitRegister 0x28 0x0123456789ABCDEF#64 = [⟨⟨0x28, 4⟩, 0x89ABCDEF#32⟩, ⟨⟨0x2C, 4⟩, 0x01234567#32⟩] ∧
    (BusAccess.write (splitRegister 0x28 0x0123456789ABCDEF#64)).bind narrow64 =
      some (.write 0x005 0x0123456789ABCDEF#64) := by decide
/-- R52 on V-KAT-1: the ciphertext's bytes. -/
theorem test_block_bytes :
    (List.range 16).map
      (fun i => (byteOfBlock ⟨0x36A5C38F#32, 0x78F7B156#32, 0x4EDF29C1#32, 0x1EA44898#32⟩ i).toNat) =
      [0x8f, 0xc3, 0xa5, 0x36, 0x56, 0xb1, 0xf7, 0x78, 0xc1, 0x29, 0xdf, 0x4e, 0x98, 0x48, 0xa4, 0x1e] := by decide +kernel
/-- R44, R127: the two orders of one cycle. -/
theorem test_cycle_orders :
    let q : Ports ref := { rstN := true, hValid := true, hWrite := false, hIdx := 0x002, hWdata := 0 }
    q.events .hostFirst = [.releaseReset, .host (.read 0x002), .engine] ∧
    q.events .engineFirst = [.releaseReset, .engine, .host (.read 0x002)] := by decide

/-! ### Witnesses: for every statement with hypotheses, values that meet them all, at the ends of each range -/

/-- A state of the reference instance with `ev` next. -/
abbrev next (e : Engine ref) (ev : Event ref) : State := stateWith e [ev]

/-- The reset engine of the reference instance. -/
abbrev idle : Engine ref := Engine.reset ref

/-- The reset engine with ENC accepted, `n` engine steps left, and a key. -/
abbrev busyEnc (n : Nat) : Engine ref := { running idle 3 n with keyValid := true }

theorem witness_DecodeEncodeRoundTrip :
    (Instr.rotli .D .C 63).wellFormed = true ∧ (Instr.rotri .A .A 0).wellFormed = true ∧
    Instr.nop.wellFormed = true := ⟨rfl, rfl, rfl⟩
theorem witness_LegalWordsEncodeBack :
    decode 0x0000FCF7#32 = .ok (.rotli .D .D 63) ∧ decode 0x000003F5#32 = .ok (.rotl .D .D .D) := ⟨rfl, rfl⟩
theorem witness_OpcodeMapDecides :
    0x0000FCF7#32 &&& 0xFFFF030F = 0x00000007 ∧ decode 0x0000FCF7#32 = .ok (.rotli .D .D 63) ∧
    0x000000F9#32 &&& 0xFFFFFF0F = 0x00000009 ∧ decode 0x000000F9#32 = .ok (.mulmix .D .D) :=
  ⟨by decide, rfl, by decide, rfl⟩
/-- One word at an end of each clause's range, and an idle engine. -/
theorem witness_IllegalWordsAreRejected :
    idle.busy = false ∧ (∃ r, decode (BitVec.setWidth 32 (0x10000#32)) = .error r) ∧
    (∃ r, decode 0x0000000A#32 = .error r) ∧ (∃ r, decode 0x0000000F#32 = .error r) ∧
    (∃ r, decode 0x00000010#32 = .error r) ∧ (∃ r, decode 0x00008004#32 = .error r) ∧
    (∃ r, decode 0x00000405#32 = .error r) ∧ (∃ r, decode 0x00008006#32 = .error r) ∧
    (∃ r, decode 0x00000107#32 = .error r) ∧ (∃ r, decode 0x00000208#32 = .error r) ∧
    (∃ r, decode 0x00000109#32 = .error r) ∧ (∃ r, decode 0x00008009#32 = .error r) :=
  ⟨rfl, ⟨_, rfl⟩, ⟨_, rfl⟩, ⟨_, rfl⟩, ⟨_, rfl⟩, ⟨_, rfl⟩, ⟨_, rfl⟩, ⟨_, rfl⟩, ⟨_, rfl⟩, ⟨_, rfl⟩, ⟨_, rfl⟩, ⟨_, rfl⟩⟩
theorem witness_KeyWordCount : 0 ≤ ref.B_MAX ∧ 32 ≤ ref.B_MAX ∧ 0 < 32 := by decide
/-- A key of 29 bytes: word 7 has its byte 0 from the key and bytes 1 to 3 of padding. And two mixers that differ in
word 2 of L only, with c = 2. -/
theorem witness_KeyWordsLoadLittleEndian :
    (29 ≤ ref.B_MAX ∧ 7 < keyWords ref.U 29 ∧ 7 * ref.U + 0 < 29 ∧ ¬ 7 * ref.U + 1 < 29) ∧
    (let m : Mixer 32 4 3 := ⟨#v[0, 0, 0, 0], #v[1, 2, 3], 0, 0, 0, 1⟩
      let m' : Mixer 32 4 3 := { m with l := #v[1, 2, 9] }
      m ≠ m' ∧ m.j < 2 ∧ m' = { m with l := m'.l } ∧ ∀ j, j < 2 → fileRead m.l j = fileRead m'.l j) := by
  decide +kernel
theorem witness_TableBeforeMixing : 0 < ref.T ∧ 0 < 1 ∧ 1 < ref.T ∧ 43 < ref.T := by decide
theorem witness_KeyScheduleFollowsTheRules : 0 ≤ ref.B_MAX ∧ 32 ≤ ref.B_MAX ∧ 0 < ref.T ∧ 43 < ref.T := by decide
/-- Two instances that differ in B_MAX and binding, with key lengths at each one's end or within. -/
theorem witness_KeyScheduleDeterminism :
    let p : Params := { ref with keyMax := 1, binding := .platform [] }
    let s := stateWith ({ feed (Engine.reset p) [7] with keyLen := 1 } : Engine p) []
    let s' := stateWith { feed idle [7, 2] with keyLen := 1, done := true } [.engine]
    s.params ≠ s'.params ∧ s.params.width = s'.params.width ∧ s.params.rounds = s'.params.rounds ∧
    s.eng.keyLen = s'.eng.keyLen ∧ s.eng.keyLen.toNat ≤ s.params.B_MAX ∧ s'.eng.keyLen.toNat ≤ s'.params.B_MAX ∧
    ∀ n, n < s.eng.keyLen.toNat → keyBufferByte s n = keyBufferByte s' n := by
  decide +kernel
/-- Every command's word as data of a CMD write, with the engine busy, idle without a key, and idle with one. -/
theorem witness_issues :
    (∀ w : BitVec 32, BitVec.setWidth 32 (BitVec.setWidth ref.WD w) = w) ∧
    (busyEnc 1).busy = true ∧ idle.busy = false ∧ idle.keyValid = false ∧
    ({ idle with keyValid := true } : Engine ref).busy = false ∧
    ({ idle with keyValid := true } : Engine ref).keyValid = true :=
  ⟨fun w => by show BitVec.setWidth 32 (BitVec.setWidth 32 w) = w; simp, rfl, rfl, rfl, rfl, rfl⟩
/-- A word of each opcode with the lowest and the highest of its unused bits set. -/
theorem witness_illegalWith :
    ((0x10#32 &&& 0xF = 0x0 ∧ 0x10#32 &&& 0xFFFFFFF0 ≠ 0) ∧ (0x80000001#32 &&& 0xF = 0x1 ∧
      0x80000001#32 &&& 0xFFFFFFF0 ≠ 0) ∧ (0x12#32 &&& 0xF = 0x2 ∧ 0x12#32 &&& 0xFFFFFFF0 ≠ 0)) ∧
    ((0x13#32 &&& 0xF = 0x3 ∧ 0x13#32 &&& 0xFFFFFFF0 ≠ 0) ∧ (0x14#32 &&& 0xF = 0x4 ∧
      0x14#32 &&& 0xFFFFFFF0 ≠ 0)) ∧
    ((0x405#32 &&& 0xF = 0x5 ∧ 0x405#32 &&& 0xFFFFFC00 ≠ 0) ∧ (0x80000006#32 &&& 0xF = 0x6 ∧
      0x80000006#32 &&& 0xFFFFFC00 ≠ 0)) ∧
    ((0x107#32 &&& 0xF = 0x7 ∧ 0x107#32 &&& 0xFFFF0300 ≠ 0) ∧ (0x80000008#32 &&& 0xF = 0x8 ∧
      0x80000008#32 &&& 0xFFFF0300 ≠ 0)) ∧
    (0x109#32 &&& 0xF = 0x9 ∧ 0x109#32 &&& 0xFFFFFF00 ≠ 0) := by decide
theorem witness_NopOnlyRunsTheProtocol : (stateWith { idle with die := true } []).eng.die = true := rfl

theorem step_completes {p : Params} (e : Engine p) (w : BitVec 32) (i : Instr) (hd : decode w = .ok i) :
    step (stateWith (running e w 1) [.engine]) = .next (stateWith (effectOf i (running e w 1)).finish []) := by
  rw [step_cons (s := stateWith (running e w 1) [.engine]) (rest := []) rfl]
  show State.completePending _ w = _
  unfold State.completePending
  rw [hd]
  exact exec_eq i _

theorem feed_one_inv : EngineInv (running (feed idle [7]) 1 1) := by
  refine ⟨by decide, by decide, ?_, fun _ => ⟨rfl, rfl, rfl⟩, fun n => fileRead_replicate_zero _, ?_⟩
  · have h : ∀ n, n < 32 → 1 ≤ n → fileRead (running (feed idle [7]) 1 1).key n = 0 := by decide +kernel
    exact fun n h1 h2 => h n h2 h1
  · intro w n h
    cases h
    exact ⟨rfl, Nat.le_refl 1, .keyclr, rfl, trivial⟩

/-- A step on which KEYCLR takes COUNT from 1 to 0, from a state of the invariant. -/
theorem witness_KeyclrClearsTheKeyBuffer :
    let s := next (running (feed idle [7]) 1 1) .engine
    Inv s ∧ ∃ t, step s = .next t ∧ t.eng.keyCount.toNat < s.eng.keyCount.toNat :=
  ⟨⟨feed_one_inv, fun h => by cases h⟩, _, step_completes _ _ .keyclr rfl, by decide⟩
theorem witness_SchedComputesTheTable :
    (running (keyed ref []) 2 1).busy = true ∧
    (feed idle [7]).busy = false ∧ (feed idle [7]).keyCount ≠ (feed idle [7]).keyLen ∧
    (keyed ref zeroKey).busy = false ∧ (keyed ref zeroKey).keyCount = (keyed ref zeroKey).keyLen := by decide +kernel
theorem witness_EncAndDecTransformTheBlock : (stateWith (Engine.reset noRounds) []).params.R = 0 := rfl
/-- Amounts 0 and 32 are multiples of W; a register other than the destination. -/
theorem witness_RotateByRegister :
    ((engineWith ref 1 32 0 0).blk.get .B).toNat % ref.W = 0 ∧ ((engineWith ref 1 32 0 0).blk.get .C).toNat % ref.W = 0 ∧
    BlkReg.A ≠ BlkReg.D := by decide
theorem witness_RotateByImmediate : 0 ≤ 63 ∧ 63 ≤ 63 ∧ BlkReg.A ≠ BlkReg.B := by decide
theorem witness_CmdWriteChecksInOrder :
    (busyEnc 1).busy = true ∧ idle.busy = false ∧ (∃ r, decode (BitVec.setWidth 32 (0xA#32)) = .error r) ∧
    decode (BitVec.setWidth 32 (3#32)) = .ok .enc ∧ decode (BitVec.setWidth 32 (4#32)) = .ok .dec ∧
    idle.keyValid = false ∧ ({ idle with keyValid := true } : Engine ref).keyValid = true ∧
    decode (BitVec.setWidth 32 (2#32)) = .ok .sched ∧ (feed idle [7]).keyCount ≠ (feed idle [7]).keyLen ∧
    idle.keyCount = idle.keyLen ∧ (stateWith idle []).rstN = true :=
  ⟨rfl, rfl, ⟨_, rfl⟩, rfl, rfl, rfl, rfl, rfl, by decide, rfl, rfl⟩
theorem witness_HostStepsAreAtomic :
    (next idle (.host (.read 0xFFF))).inputs = [.host (.read 0xFFF)] ∧
    (next idle (.host (.write 0x000 7))).inputs = [.host (.write 0x000 7)] ∧
    (next idle (.host (.write 0x000 7))).rstN = true := ⟨rfl, rfl, rfl⟩
theorem witness_EngineStepsIdleAndCount :
    (next idle .engine).rstN = true ∧ engineIsNext (next idle .engine) ∧ engineIsNext (stateWith idle []) ∧
    (next idle .engine).eng.phase = .idle ∧ (next (busyEnc 2) .engine).eng.phase = .run 3 (0 + 2) :=
  ⟨rfl, .inr rfl, .inl rfl, rfl, rfl⟩
/-- A completing step of each command, listed or not. -/
theorem witness_StepRunsThePendingCommand (i : Instr) (hd : decode (encode i) = .ok i) :
    completes (next (running idle (encode i) 1) .engine) i ∧ completes (stateWith (running idle (encode i) 1) []) i :=
  ⟨⟨rfl, .inr rfl, _, 1, rfl, Nat.le_refl 1, hd⟩, ⟨rfl, .inl rfl, _, 1, rfl, Nat.le_refl 1, hd⟩⟩
theorem witness_completes_rotri : completes (next (running idle (encode (.rotri .D .D 63)) 1) .engine) (.rotri .D .D 63) :=
  (witness_StepRunsThePendingCommand _ rfl).1
theorem witness_PlacedWordRunsNext : 0xFCF8 < 2 ^ 32 ∧ decodeTableWord 32 0xFCF8 = some (.rotri .D .D 63) :=
  ⟨by decide, rfl⟩
/-- The first step after reset, with a word placed. -/
theorem test_first_step_after_reset :
    after (fun s => rd s.eng 0x002) (step (State.reset.withFetchWord 32 0x4)) = 2 ∧
    after (fun s => rd s.eng 0x002) (step (State.reset.withFetchWord 32 0x3F5)) = 2 := by decide +kernel
theorem witness_LatencyChangesNoResult :
    (stateWith (busyEnc 6) []).rstN = true ∧ (stateWith (busyEnc 6) []).inputs = [] ∧
    (stateWith (busyEnc 6) []).eng.phase = .run 3 (5 + 1) ∧ decode 3 = .ok .enc := ⟨rfl, rfl, rfl, rfl⟩
theorem witness_IssuedCommandTakesEffect :
    let s := next (keyed ref zeroKey) (.host (.write 0x005 2#32))
    s.rstN = true ∧ s.eng.busy = false ∧ s.inputs = [.host (.write 0x005 2#32)] ∧
    decode (BitVec.setWidth 32 (2#32)) = .ok .sched ∧ s.eng.issueCheck .sched = .noError :=
  ⟨rfl, rfl, rfl, rfl, rfl⟩

theorem busyEnc_inv (n : Nat) (h : 1 ≤ n) : EngineInv (busyEnc n) := by
  refine ⟨Nat.zero_le _, Nat.zero_le _, fun _ _ _ => fileRead_replicate_zero _, fun _ => ⟨rfl, rfl, rfl⟩,
    fun _ => fileRead_replicate_zero _, ?_⟩
  intro w m hp
  cases hp
  exact ⟨rfl, h, .enc, rfl, rfl⟩

/-- A busy state, with a bound bus access and a rejected write to come. -/
theorem witness_EveryAcceptedCommandCompletes :
    let s := stateWith (busyEnc 4) [.bus (.write [⟨⟨0x14, 4⟩, 3#32⟩]), .host (.write 0x005 3)]
    Inv s ∧ busBound s ∧ Event.waitIdle ∉ s.inputs ∧ Event.assertReset ∉ s.inputs ∧
      s.eng.phase = .run 3 4 ∧ decode 3 = .ok .enc := by
  refine ⟨⟨busyEnc_inv 4 (by decide), fun h => by cases h⟩, ?_, by decide, by decide, rfl, rfl⟩
  intro b hb
  rcases List.mem_cons.1 hb with h | h
  · cases h
    decide
  · rcases List.mem_cons.1 h with h | h <;> cases h
theorem witness_GatedWritesWhileBusy :
    (busyEnc 1).busy = true ∧ 0x013#12 ∈ [0x005#12, 0x006#12, 0x007#12, 0x010#12, 0x011#12, 0x012#12, 0x013#12] ∧
    0x003#12 ∈ [0x001#12, 0x002#12, 0x003#12] ∧
    ([0x000#12, 0x004#12, 0x008#12, 0x00F#12, 0x014#12, 0x100#12, 0xFFF#12].all fun i =>
      decide (i ∉ [0x001#12, 0x002#12, 0x003#12, 0x005#12, 0x006#12, 0x007#12, 0x010#12, 0x011#12, 0x012#12,
        0x013#12])) = true := by decide +kernel
theorem witness_BlockRegisterWrites : 0 < 4 ∧ 3 < 4 ∧ (busyEnc 1).busy = true ∧ idle.busy = false := by decide
theorem witness_KeylenWrites :
    (busyEnc 1).busy = true ∧ idle.busy = false ∧ (33#32).toNat % 2 ^ 32 > ref.B_MAX ∧
    (32#32).toNat % 2 ^ 32 ≤ ref.B_MAX := by decide
theorem witness_KeydataAppendsAByte :
    (busyEnc 1).keyCount.toNat ≤ ref.B_MAX ∧ (busyEnc 1).busy = true ∧
    idle.keyCount.toNat ≤ ref.B_MAX ∧ idle.busy = false ∧ idle.keyCount.toNat ≠ ref.B_MAX ∧
    ({ idle with keyCount := 32 } : Engine ref).keyCount.toNat ≤ ref.B_MAX ∧
    ({ idle with keyCount := 32 } : Engine ref).busy = false ∧
    ({ idle with keyCount := 32 } : Engine ref).keyCount.toNat = ref.B_MAX := by decide +kernel
theorem witness_FirstErrorIsKept :
    idle.errCode = .noError ∧ ({ idle with errCode := .keylenRange } : Engine ref).errCode ≠ .noError := by decide
theorem witness_RejectedWritesAreErased :
    idle.writeCheck 0x005 3 ≠ .noError ∧ idle.errCode = .noError ∧
    ({ idle with errCode := .noKey } : Engine ref).writeCheck 0x006 33 ≠ .noError ∧
    ({ idle with errCode := .noKey } : Engine ref).errCode ≠ .noError := by decide +kernel
theorem witness_FileReadsAndUnmappedReads :
    3 < 4 ∧ 43 < ref.T ∧
    ([0x009#12, 0x00F#12, 0x014#12, 0x0FF#12, 0x12C#12, 0xFFF#12].all fun idx =>
      decide ((0x008 < idx.toNat ∧ idx.toNat < 0x010) ∨ (0x013 < idx.toNat ∧ idx.toNat < 0x100) ∨
        0x100 + ref.T ≤ idx.toNat)) = true := by decide +kernel
/-- Volatile at the ends of each range and not beside them; a busy, an idle and a reset read. -/
theorem witness_VolatileReadsAreFree :
    ([0x008#12, 0x010#12, 0x013#12, 0x100#12, 0x12B#12].map fun idx => (Reg.ofIndex ref idx).volatile) =
      [true, true, true, true, true] ∧
    ([0x007#12, 0x009#12, 0x00F#12, 0x014#12, 0x0FF#12, 0x12C#12].map fun idx => (Reg.ofIndex ref idx).volatile) =
      [false, false, false, false, false, false] ∧
    (next (busyEnc 1) (.host (.read 0x008))).inputs = [.host (.read 0x008)] ∧
    (next (busyEnc 1) (.host (.read 0x008))).rstN = true ∧ (busyEnc 1).busy = true ∧ idle.busy = false ∧
    ({ next idle (.host (.read 0x008)) with rstN := false } : State).rstN = false := by decide +kernel
theorem witness_ResetState : 0x001#12 ≠ 0x000#12 ∧ 0xFFF#12 ≠ 0x000#12 := by decide
theorem witness_ResetOverridesAll :
    (next (busyEnc 3) .assertReset).inputs = [.assertReset] ∧ (next idle .releaseReset).inputs = [.releaseReset] ∧
    ({ next idle (.host (.write 0x001 3)) with rstN := false } : State).rstN = false ∧
    ({ next idle (.host (.write 0x001 3)) with rstN := false } : State).inputs = [.host (.write 0x001 3)] ∧
    ({ next idle .engine with rstN := false } : State).inputs = [.engine] := ⟨rfl, rfl, rfl, rfl, rfl⟩
theorem witness_NoKeyAfterReset :
    BitVec.setWidth 32 (3#32) = encode .enc ∧ BitVec.setWidth 32 (4#32) = encode .dec := by decide
/-- Steps from busy states of the invariant: counting, completing, and a rejected write. -/
theorem witness_StepKeepsInvariant :
    Inv (next (busyEnc 2) .engine) ∧ (∃ t, step (next (busyEnc 2) .engine) = .next t) ∧
    Inv (next (busyEnc 1) .engine) ∧ (∃ t, step (next (busyEnc 1) .engine) = .next t) ∧
    Inv (next (busyEnc 1) (.host (.write 0x005 3))) ∧
    (∃ t, step (next (busyEnc 1) (.host (.write 0x005 3))) = .next t) :=
  ⟨⟨busyEnc_inv 2 (by decide), fun h => by cases h⟩, ⟨_, rfl⟩, ⟨busyEnc_inv 1 (by decide), fun h => by cases h⟩,
    ⟨_, step_completes { idle with keyValid := true } 3 .enc rfl⟩, ⟨busyEnc_inv 1 (by decide), fun h => by cases h⟩, ⟨_, rfl⟩⟩
theorem witness_InvariantStepsAreSafe :
    let s := stateWith (busyEnc 1) [.bus (.read [⟨0x3FFC, 4⟩]), .waitIdle]
    Inv s ∧ busBound s := by
  refine ⟨⟨busyEnc_inv 1 (by decide), fun h => by cases h⟩, ?_⟩
  intro b hb
  rcases List.mem_cons.1 hb with h | h
  · cases h
    decide
  · rcases List.mem_cons.1 h with h | h <;> cases h
theorem witness_ParametersAreFixed : ∃ t, step (next (busyEnc 1) .engine) = .next t :=
  ⟨_, step_completes { idle with keyValid := true } 3 .enc rfl⟩
/-- Round key 0 changes as SCHED of the empty key completes. -/
theorem witness_RoundKeysChangeOnlyBySched :
    let s := stateWith (running (keyed noRounds []) 2 1) [.engine]
    ∃ t, step s = .next t ∧ roundKey t 0 ≠ roundKey s 0 :=
  ⟨_, step_completes _ _ .sched rfl, by decide +kernel⟩
/-- BUSY rises and falls, DONE rises, KEY_VALID rises. -/
theorem witness_StatusBitsChangeOnlyAsStated :
    (let s := next idle (.host (.write 0x005 0))
      ∃ t, step s = .next t ∧ s.eng.busy = false ∧ t.eng.busy = true) ∧
    (let s := next (running idle 0 1) .engine
      ∃ t, step s = .next t ∧ s.eng.busy = true ∧ t.eng.busy = false ∧ s.eng.done = false ∧ t.eng.done = true) ∧
    (let s := next (running idle 2 1) .engine
      ∃ t, step s = .next t ∧ s.eng.keyValid = false ∧ t.eng.keyValid = true) ∧
    (let s := next { idle with done := true } (.host (.write 0x002 2))
      ∃ t, step s = .next t ∧ s.eng.done = true ∧ t.eng.done = false) ∧
    (let s := next { idle with done := true, keyValid := true } (.host (.write 0x005 2))
      ∃ t, step s = .next t ∧ s.eng.done = true ∧ t.eng.done = false ∧
        s.eng.keyValid = true ∧ t.eng.keyValid = false) ∧
    (let s := next { idle with done := true, keyValid := true } .assertReset
      ∃ t, step s = .next t ∧ s.eng.done = true ∧ t.eng.done = false ∧
        s.eng.keyValid = true ∧ t.eng.keyValid = false) :=
  ⟨⟨_, rfl, rfl, rfl⟩, ⟨_, step_completes _ _ .nop rfl, rfl, rfl, rfl, rfl⟩, ⟨_, step_completes _ _ .sched rfl, rfl, rfl⟩,
    ⟨_, rfl, rfl, rfl⟩, ⟨_, rfl, rfl, rfl, rfl, rfl⟩, ⟨_, rfl, rfl, rfl, rfl, rfl⟩⟩
/-- A changes by a host write, D by MULMIX D, C. -/
theorem witness_BlockRegistersChangeOnlyAsStated :
    (0 < 4 ∧ ∃ t, step (next idle (.host (.write 0x010 1))) = .next t ∧ blockWord t (blkOfIndex 0) ≠ 0) ∧
    (3 < 4 ∧ ∃ t, step (next (running (engineWith ref 0 0 1 0) 0xB9 1) .engine) = .next t ∧
      blockWord t (blkOfIndex 3) ≠ 0) :=
  ⟨⟨by decide, _, rfl, by decide +kernel⟩, ⟨by decide, _, step_completes _ _ (.mulmix .D .C) rfl, by decide +kernel⟩⟩
/-- Two states that differ in a key byte, at a step that completes no SCHED. -/
theorem witness_KeyBufferReachesOnlySched :
    let s := next (feed idle [7]) (.host (.write 0x007 1))
    let s' := next { feed idle [7] with key := (feed idle [8]).key } (.host (.write 0x007 1))
    s ≠ s' ∧ sameButKey s s' ∧ ¬ completes s .sched :=
  ⟨by decide +kernel, ⟨(feed idle [8]).key, rfl⟩, fun ⟨_, _, _, _, h, _⟩ => by cases h⟩
/-- A clause each: default (bound at the last index, unbound by size, place and window), a platform's row, no row, a
row that does not carry the register low half first, the halves, and a step of a bound and of an unbound access. -/
theorem witness_BusBindingGivesHostSteps :
    ref.binding = .default ∧ (BusAccess.read [⟨0x3FFC, 4⟩]).bind ref = some (.read 0xFFF) ∧
    (BusAccess.write [⟨⟨0, 4⟩, 7#32⟩]).bind ref = some (.write 0 7) ∧
    ([[⟨0, 2⟩], [⟨2, 4⟩], [⟨0x4000, 4⟩], [⟨0, 2⟩, ⟨2, 2⟩], []].map fun x => (BusAccess.read x).bind ref) =
      [none, none, none, none, none] ∧
    narrow64.binding = .platform ([] ++ ⟨[⟨0x28, 4⟩, ⟨0x2C, 4⟩], 0x005⟩ :: [⟨[⟨0x34, 4⟩, ⟨0x30, 4⟩], 0x006⟩]) ∧
    narrow64.WD = 64 ∧ spanBytes [⟨0x28, 4⟩, ⟨0x2C, 4⟩] = narrow64.WD / 8 ∧
    lowHalfFirst (narrow64.WD / 8) [⟨0x28, 4⟩, ⟨0x2C, 4⟩] = true ∧
    (BusAccess.read [⟨0x28, 4⟩, ⟨0x2C, 4⟩]).bind narrow64 = some (.read 0x005) ∧
    ([[⟨0x28, 8⟩], [⟨0x28, 4⟩], [⟨0x34, 4⟩, ⟨0x30, 4⟩]].map fun x => (BusAccess.read x).bind narrow64) =
      [none, none, none] ∧
    (next idle (.bus (.read [⟨0x3FFC, 4⟩]))).inputs = [.bus (.read [⟨0x3FFC, 4⟩])] ∧
    (next idle (.bus (.read [⟨0, 2⟩]))).inputs = [.bus (.read [⟨0, 2⟩])] := by
  decide
theorem witness_BlockByteOrder :
    3 < 4 ∧ 3 < Width.w32.bits / 8 ∧ 0 < 4 * (Width.w32.bits / 8) ∧ 15 < 4 * (Width.w32.bits / 8) := by decide
theorem witness_SameCycleOrders :
    (stateWith (running idle 0 1) []).rstN = true ∧ (stateWith (running idle 0 1) []).eng.phase = .run 0 1 ∧
    decode 0 = .ok .nop ∧
    ∃ f, exec .nop (stateWith (running idle 0 1) []) = .next { stateWith (running idle 0 1) [] with eng := f } :=
  ⟨rfl, rfl, rfl, _, rfl⟩
theorem witness_ElaborationBuildsLegalInstancesOnly :
    (∃ p, Params.elaborate 16 0 0 1 2 .default = some p) ∧ (∃ p, Params.elaborate 64 255 255 1 2 .default = some p) ∧
    (∃ p, Params.elaborate 16 0 0 0xFFFF 0 .default = some p) ∧ 0xFFFF < 2 ^ 16 ∧
    (∃ p, Params.elaborate 64 0 0 0 0xFFFFFFFFFFFFFFFF (.platform []) = some p) ∧ 0xFFFFFFFFFFFFFFFF < 2 ^ 64 ∧
    (∃ p, Params.elaborate 32 20 32 0 0 .default = some p) :=
  ⟨⟨_, rfl⟩, ⟨_, rfl⟩, ⟨_, rfl⟩, by decide, ⟨_, rfl⟩, by decide, ⟨_, rfl⟩⟩
theorem witness_PseudoCommandsExpand :
    (next idle .waitIdle).rstN = true ∧ (next idle .waitIdle).inputs = [.waitIdle] ∧ idle.busy = false ∧
    (next (busyEnc 1) .waitIdle).rstN = true ∧ (next (busyEnc 1) .waitIdle).inputs = [.waitIdle] ∧
    (busyEnc 1).busy = true := ⟨rfl, rfl, rfl, rfl, rfl, rfl⟩

end Sys2Proof.Tests
end

/-! The proofs of the statements of 00_scope.md: the parameters stay as built (R8), and which instances elaboration
builds (R6 to R13). -/

namespace Sys2Proof

open Sys2Proof.Machine

/-! ### Widths (R6, R7) -/

theorem Width.two_pow_lg (wd : Width) : 2 ^ wd.lg = wd.bits := by cases wd <;> rfl

theorem Width.bits_div_eight_mul (wd : Width) : wd.bits / 8 * 8 = wd.bits := by
  cases wd <;> simp [Width.bits]

/-- What elaboration builds for each width, and that it builds nothing else. -/
theorem Width.elaborate_eq_some {w pw qw : Nat} {wd : Width} :
    Width.elaborate w pw qw = some wd ↔
      (w = 16 ∧ wd = .w16 (BitVec.ofNat 16 pw) (BitVec.ofNat 16 qw)) ∨ (w = 32 ∧ wd = .w32) ∨
      (w = 64 ∧ wd = .w64 (BitVec.ofNat 64 pw) (BitVec.ofNat 64 qw)) := by
  constructor
  · intro h
    unfold Width.elaborate at h
    split at h
    · cases h
      exact .inl ⟨‹_›, rfl⟩
    · split at h
      · cases h
        exact .inr (.inl ⟨‹_›, rfl⟩)
      · split at h
        · cases h
          exact .inr (.inr ⟨‹_›, rfl⟩)
        · cases h
  · rintro (⟨rfl, rfl⟩ | ⟨rfl, rfl⟩ | ⟨rfl, rfl⟩) <;> rfl

theorem Width.exists_elaborate (w pw qw : Nat) :
    (∃ wd, Width.elaborate w pw qw = some wd) ↔ w = 16 ∨ w = 32 ∨ w = 64 := by
  simp only [Width.elaborate_eq_some, exists_or, exists_and_left, exists_eq, and_true]

section
variable {w pw qw : Nat} {wd : Width} (h : Width.elaborate w pw qw = some wd)
include h

theorem Width.bits_of_elaborate : wd.bits = w := by
  obtain ⟨rfl, rfl⟩ | ⟨rfl, rfl⟩ | ⟨rfl, rfl⟩ := Width.elaborate_eq_some.1 h <;> rfl

/-- P_W is the spec's literal for W = 32, else the low W bits of what was asked for (R12, R94; assumption 20). -/
theorem Width.magicP_of_elaborate : (magicP wd).toNat = if w = 32 then 0xB7E15163 else pw % 2 ^ w := by
  obtain ⟨rfl, rfl⟩ | ⟨rfl, rfl⟩ | ⟨rfl, rfl⟩ := Width.elaborate_eq_some.1 h <;> rfl

/-- Q_W is the spec's literal for W = 32, else the low W bits of what was asked for (R12, R94; assumption 20). -/
theorem Width.magicQ_of_elaborate : (magicQ wd).toNat = if w = 32 then 0x9E3779B9 else qw % 2 ^ w := by
  obtain ⟨rfl, rfl⟩ | ⟨rfl, rfl⟩ | ⟨rfl, rfl⟩ := Width.elaborate_eq_some.1 h <;> rfl

end

/-! ### Instances (R6, R8, R10) -/

/-- An instance is built exactly when its width is, and it is the one asked for. -/
theorem Params.elaborate_eq_some {w r b pw qw : Nat} {bb : BusBinding} {p : Params} :
    Params.elaborate w r b pw qw bb = some p ↔
      Width.elaborate w pw qw = some p.width ∧ p.R = r ∧ p.B_MAX = b ∧ p.binding = bb := by
  constructor
  · intro h
    unfold Params.elaborate at h
    split at h
    · cases h
    · split at h
      · split at h
        · cases h
          exact ⟨‹_›, rfl, rfl, rfl⟩
        · cases h
      · cases h
  · rintro ⟨hw, rfl, rfl, rfl⟩
    simp [Params.elaborate, hw]

theorem Params.exists_elaborate (w r b pw qw : Nat) (bb : BusBinding) :
    (∃ p, Params.elaborate w r b pw qw bb = some p) ↔ (w = 16 ∨ w = 32 ∨ w = 64) ∧ r ≤ 255 ∧ b ≤ 255 := by
  rw [← Width.exists_elaborate w pw qw]
  constructor
  · rintro ⟨p, h⟩
    obtain ⟨hw, rfl, rfl, -⟩ := Params.elaborate_eq_some.1 h
    exact ⟨⟨p.width, hw⟩, Nat.le_of_lt_succ p.rounds.isLt, Nat.le_of_lt_succ p.keyMax.isLt⟩
  · rintro ⟨⟨wd, hw⟩, hr, hb⟩
    exact ⟨⟨wd, ⟨r, Nat.lt_succ_of_le hr⟩, ⟨b, Nat.lt_succ_of_le hb⟩, bb⟩,
      Params.elaborate_eq_some.2 ⟨hw, rfl, rfl, rfl⟩⟩

/-! ### The obligations -/

/-- Settles O51: each of the five things a step to a next state can do is an update of other fields. -/
theorem parametersAreFixed : Obligations.ParametersAreFixed := by
  intro s t h
  obtain ⟨_, _, _, _, -, rfl⟩ | ⟨_, _, -, -, -, rfl⟩ | ⟨_, _, _, -, -, -, -, -, rfl⟩ |
    ⟨_, _, _, -, -, -, rfl⟩ | ⟨-, rfl⟩ := step_next_cases h <;> rfl

/-- Settles O59: an instance is built exactly for a legal width, R and B_MAX, and each derived parameter follows from
its width's. -/
theorem elaborationBuildsLegalInstancesOnly : Obligations.ElaborationBuildsLegalInstancesOnly := by
  refine ⟨fun w r b pw qw bb => (Params.exists_elaborate w r b pw qw bb).symm, ?_⟩
  intro w r b pw qw bb p h
  obtain ⟨hw, hr, hb, hbb⟩ := Params.elaborate_eq_some.1 h
  have hW : p.W = w := Width.bits_of_elaborate hw
  have hP := Width.magicP_of_elaborate hw
  have hQ := Width.magicQ_of_elaborate hw
  have ne_32 (h : w = 16 ∨ w = 64) : w ≠ 32 := by omega
  refine ⟨hW, hr, hb, hbb, p.width.two_pow_lg.trans hW, p.width.bits_div_eight_mul.trans hW, by rw [Params.T, hr],
    by rw [Params.WD, hW], fun h16 hlt => ?_, fun h16 hlt => ?_, fun h32 => ⟨?_, ?_⟩⟩
  · rw [hP, if_neg (ne_32 h16), Nat.mod_eq_of_lt hlt]
  · rw [hQ, if_neg (ne_32 h16), Nat.mod_eq_of_lt hlt]
  · rw [hP, if_pos h32]
  · rw [hQ, if_pos h32]

end Sys2Proof

/-! The proofs of the statements of 10_state.md: what keeps the invariant, what the registers read as, what changes
each piece of state, and what the key buffer reaches (R22 to R42). -/

namespace Sys2Proof.Machine

/-! ### What the registers read as (R22 to R35, R47) -/

theorem toNat_append_add {n m : Nat} (x : BitVec n) (y : BitVec m) :
    (x ++ y).toNat = y.toNat + 2 ^ m * x.toNat := by
  rw [BitVec.toNat_append, ← Nat.shiftLeft_add_eq_or_of_lt y.isLt, Nat.shiftLeft_eq, Nat.mul_comm, Nat.add_comm]

section
variable (p : Params)

theorem W_lt_256 : p.W < 2 ^ 8 := by
  show p.width.bits < _
  cases p.width <;> simp [Width.bits]

/-- A register of at most WD bits is read as the number it holds (R47). -/
theorem toNat_setWidth_WD {w : Nat} (h : w ≤ p.WD) (x : BitVec w) : (x.setWidth p.WD).toNat = x.toNat :=
  BitVec.toNat_setWidth_of_le h

theorem idWord_toNat : (idWord p).toNat = p.W + 2 ^ 8 * p.R + 2 ^ 16 * p.B_MAX + 2 ^ 24 * 0x01 := by
  have hW := Nat.mod_eq_of_lt (W_lt_256 p)
  have hR := Nat.mod_eq_of_lt (show p.R < 2 ^ 8 from p.rounds.isLt)
  have hB := Nat.mod_eq_of_lt (show p.B_MAX < 2 ^ 8 from p.keyMax.isLt)
  rw [idWord, toNat_append_add]
  simp only [toNat_append_add, BitVec.toNat_ofNat]
  omega

end

section
variable {p : Params} (e : Engine p)

theorem Engine.ctrlWord_toNat : e.ctrlWord.toNat = e.die.toNat + 2 * e.eie.toNat := by
  rw [Engine.ctrlWord, toNat_append_add]
  simp only [toNat_append_add, BitVec.toNat_ofNat, BitVec.toNat_ofBool]
  omega

theorem Engine.statusWord_toNat :
    e.statusWord.toNat = e.busy.toNat + 2 * e.done.toNat + 4 * e.keyValid.toNat + 8 * e.irq.toNat := by
  rw [Engine.statusWord, toNat_append_add]
  simp only [toNat_append_add, BitVec.toNat_ofNat, BitVec.toNat_ofBool]
  omega

theorem Engine.errorWord_toNat :
    e.errorWord.toNat = e.errCode.toBits.toNat + 2 ^ 4 * e.errMore.toNat + 2 ^ 8 * e.errIdx.toNat := by
  rw [Engine.errorWord, toNat_append_add]
  simp only [toNat_append_add, BitVec.toNat_ofNat, BitVec.toNat_ofBool]
  omega

theorem Engine.keylenWord_toNat : e.keylenWord.toNat = e.keyLen.toNat := by
  rw [Engine.keylenWord, toNat_append_add]
  simp

theorem Engine.keycntWord_toNat : e.keycntWord.toNat = e.keyCount.toNat := by
  rw [Engine.keycntWord, toNat_append_add]
  simp

/-- A read of a block register, wherever it stands (R34, R47). -/
theorem Engine.regRead_blk {idx : BitVec 12} {r : BlkReg} (h : Reg.ofIndex p idx = .blk r) :
    (e.regRead idx).toNat = (e.blk.get r).toNat := by
  unfold Engine.regRead
  rw [h]
  exact toNat_setWidth_WD p (Nat.le_max_right _ _) _

theorem Engine.regRead_skey {i : Nat} (h : i < p.T) :
    (e.regRead (0x100#12 + BitVec.ofNat 12 i)).toNat = (fileRead e.skey i).toNat := by
  unfold Engine.regRead
  rw [Reg.ofIndex_skey p h, fileRead_of_lt e.skey h]
  exact toNat_setWidth_WD p (Nat.le_max_right _ _) _

theorem Engine.regRead_unmapped {idx : BitVec 12} (h : Reg.ofIndex p idx = .unmapped) : e.regRead idx = 0 := by
  unfold Engine.regRead
  rw [h]

end

/-- The index of block register `n` in the map (R22). -/
theorem ofIndex_blkOfIndex (p : Params) {n : Nat} (h : n < 4) :
    Reg.ofIndex p (0x010#12 + BitVec.ofNat 12 n) = .blk (blkOfIndex n) := by
  match n, h with
  | 0, _ | 1, _ | 2, _ | 3, _ => rfl

/-! ### What a completing command and a register write change (R34, R38, R51, R75, R78) -/

section
variable {p : Params} (e : Engine p)

theorem effectOf_skey {i : Instr} (h : i ≠ .sched) : (effectOf i e).skey = e.skey := by
  cases i with
  | sched => exact absurd rfl h
  | nop | keyclr | enc | dec | rotl | rotr | rotli | rotri | mulmix => rfl

theorem effectOf_keyValid (i : Instr) : (effectOf i e).keyValid = (e.keyValid || i == .sched) := by
  cases i with
  | sched => exact (Bool.or_true _).symm
  | nop | keyclr | enc | dec | rotl | rotr | rotli | rotri | mulmix => exact (Bool.or_false _).symm

theorem Engine.setBlk_changes {r r' : BlkReg} {x : Word p.W} (h : (e.setBlk r x).blk.get r' ≠ e.blk.get r') :
    r = r' := by
  by_contra hne
  exact h (e.blk.get_set_other r r' x (Ne.symm hne))

/-- The commands that write block register `r` (R34). -/
theorem effectOf_changes_blk {i : Instr} {r : BlkReg} (h : (effectOf i e).blk.get r ≠ e.blk.get r) :
    i = .enc ∨ i = .dec ∨ ∃ rs1 rs2 imm, i = .rotl r rs1 rs2 ∨ i = .rotr r rs1 rs2 ∨ i = .rotli r rs1 imm ∨
      i = .rotri r rs1 imm ∨ i = .mulmix r rs1 := by
  cases i with
  | nop | keyclr | sched => exact absurd rfl h
  | enc => exact .inl rfl
  | dec => exact .inr (.inl rfl)
  | rotl rd rs1 rs2 | rotr rd rs1 rs2 =>
    obtain rfl := e.setBlk_changes h
    exact .inr (.inr ⟨rs1, rs2, 0, by simp⟩)
  | rotli rd rs1 imm | rotri rd rs1 imm =>
    obtain rfl := e.setBlk_changes h
    exact .inr (.inr ⟨rs1, .A, imm, by simp⟩)
  | mulmix rd rs1 =>
    obtain rfl := e.setBlk_changes h
    exact .inr (.inr ⟨rs1, .A, 0, by simp⟩)

/-- The sequencer, DONE, KEY_VALID, the block registers and the round keys are the same. -/
def SameCommandState (e e' : Engine p) : Prop :=
  e'.phase = e.phase ∧ e'.done = e.done ∧ e'.keyValid = e.keyValid ∧ e'.blk = e.blk ∧ e'.skey = e.skey

theorem Engine.raiseError_sameCommandState (code : ErrorCode) (idx : BitVec 12) (v : BitVec p.WD) :
    SameCommandState e (e.raiseError code idx v) := by
  obtain ⟨-, h⟩ | ⟨-, h⟩ := e.raiseError_cases code idx v <;> rw [h] <;> exact ⟨rfl, rfl, rfl, rfl, rfl⟩

/-- The register writes that reach a command's state, said once: an accepted command, STATUS, and the block registers
(R49, R51, R75). -/
theorem Engine.regWrite_commandState_cases (lat : Nat) (idx : BitVec 12) (v : BitVec p.WD) :
    SameCommandState e (e.regWrite lat idx v) ∨
    (∃ i, idx = 0x005 ∧ e.busy = false ∧ decode (v.setWidth 32) = .ok i ∧ e.issueCheck i = .noError ∧
      e.regWrite lat idx v = e.accept (v.setWidth 32) i lat) ∨
    (idx = 0x002 ∧ e.regWrite lat idx v = e.writeStatus v) ∨
    (∃ r, Reg.ofIndex p idx = .blk r ∧ e.regWrite lat idx v = e.writeBlk r v) := by
  obtain ⟨-, h⟩ | h | ⟨-, h⟩ | h | ⟨-, h⟩ | h | ⟨-, -, -, h⟩ | ⟨-, -, -, h⟩ | ⟨r, hr, -, h⟩ :=
    e.regWrite_cases lat idx v
  · exact .inl (h ▸ e.raiseError_sameCommandState _ idx v)
  · exact .inl (h.symm ▸ ⟨rfl, rfl, rfl, rfl, rfl⟩)
  · exact .inl (h ▸ ⟨rfl, rfl, rfl, rfl, rfl⟩)
  · exact .inr (.inr (.inl h))
  · exact .inl (h ▸ ⟨rfl, rfl, rfl, rfl, rfl⟩)
  · exact .inr (.inl h)
  · exact .inl (h ▸ ⟨rfl, rfl, rfl, rfl, rfl⟩)
  · exact .inl (h ▸ ⟨rfl, rfl, rfl, rfl, rfl⟩)
  · exact .inr (.inr (.inr ⟨r, hr, h⟩))

theorem Engine.regWrite_skey (lat : Nat) (idx : BitVec 12) (v : BitVec p.WD) :
    (e.regWrite lat idx v).skey = e.skey := by
  obtain ⟨-, -, -, -, h⟩ | ⟨i, -, -, -, -, h⟩ | ⟨-, h⟩ | ⟨r, -, h⟩ := e.regWrite_commandState_cases lat idx v
  · exact h
  · rw [h, Engine.accept_eq]
  · rw [h, Engine.writeStatus]
  · rw [h, Engine.writeBlk, Engine.setBlk_skey]

/-- A write that changes a block register is a write of that register (R34). -/
theorem Engine.ofIndex_of_regWrite_changes_blk {lat : Nat} {idx : BitVec 12} {v : BitVec p.WD} {r : BlkReg}
    (hne : (e.regWrite lat idx v).blk.get r ≠ e.blk.get r) : Reg.ofIndex p idx = .blk r := by
  obtain ⟨-, -, -, h, -⟩ | ⟨i, -, -, -, -, h⟩ | ⟨-, h⟩ | ⟨r', hr, h⟩ := e.regWrite_commandState_cases lat idx v <;>
    rw [h] at hne
  · exact absurd rfl hne
  · rw [Engine.accept_eq] at hne
    exact absurd rfl hne
  · exact absurd rfl hne
  · rwa [e.setBlk_changes hne] at hr

/-- The index of a block register (R22): 0x010 and its number. -/
theorem index_of_ofIndex_blk {idx : BitVec 12} {r : BlkReg} (h : Reg.ofIndex p idx = .blk r) :
    idx = 0x010#12 + BitVec.ofNat 12 (Claims.regNum r) := by
  rcases Reg.ofIndex_split p idx with hm | ⟨i, hi, rfl⟩ | hu
  · simp only [List.mem_cons, List.not_mem_nil, or_false] at hm
    rcases hm with rfl | rfl | rfl | rfl | rfl | rfl | rfl | rfl | rfl | rfl | rfl | rfl | rfl <;> cases h <;> rfl
  · rw [Reg.ofIndex_skey p hi] at h
    cases h
  · rw [Reg.ofIndex_unmapped p hu] at h
    cases h

theorem regNum_blkOfIndex {n : Nat} (h : n < 4) : Claims.regNum (blkOfIndex n) = n := by
  match n, h with
  | 0, _ | 1, _ | 2, _ | 3, _ => rfl

end

/-! ### What the key buffer reaches (R39) -/

/-- The engine with the key buffer replaced. -/
def Engine.withKey {p : Params} (e : Engine p) (k : Vector Byte p.B_MAX) : Engine p := { e with key := k }

section
variable {p : Params} (e : Engine p) (k : Vector Byte p.B_MAX)

theorem Engine.raiseError_withKey (code : ErrorCode) (idx : BitVec 12) (v : BitVec p.WD) :
    (e.withKey k).raiseError code idx v = (e.raiseError code idx v).withKey k := by
  have hcode : (e.withKey k).errCode = e.errCode := rfl
  unfold Engine.raiseError
  rw [hcode]
  cases e.errCode <;> rfl

/-- Only SCHED reads K: KEYCLR puts zeros there, and no other command touches it. -/
theorem effectOf_withKey {i : Instr} (h : i ≠ .sched) :
    ∃ k', effectOf i (e.withKey k) = (effectOf i e).withKey k' := by
  cases i with
  | sched => exact absurd rfl h
  | keyclr => exact ⟨fileZero _ 8, rfl⟩
  | nop | enc | dec | rotl | rotr | rotli | rotri | mulmix => exact ⟨k, rfl⟩

theorem Engine.writeCmd_withKey (lat : Nat) (v : BitVec p.WD) :
    (e.withKey k).writeCmd lat v = (e.writeCmd lat v).withKey k := by
  unfold Engine.writeCmd
  cases decode (v.setWidth 32) with
  | error _ => rfl
  | ok i =>
    simp only [Engine.accept_eq]
    rfl

/-- Only KEYDATA writes K. -/
theorem Engine.writeEffect_withKey (lat : Nat) (idx : BitVec 12) (v : BitVec p.WD) :
    ∃ k', (e.withKey k).writeEffect lat idx v = (e.writeEffect lat idx v).withKey k' := by
  unfold Engine.writeEffect
  cases Reg.ofIndex p idx with
  | keydata => exact ⟨fileWrite k e.keyCount.toNat (v.setWidth 8), rfl⟩
  | cmd => exact ⟨k, e.writeCmd_withKey k lat v⟩
  | id | ctrl | status | error | errdata | keylen | keycnt | blk | skey | unmapped => exact ⟨k, rfl⟩

/-- No check of a write looks at K. -/
theorem Engine.writeCheck_withKey (idx : BitVec 12) (v : BitVec p.WD) :
    (e.withKey k).writeCheck idx v = e.writeCheck idx v := rfl

theorem Engine.regWrite_withKey (lat : Nat) (idx : BitVec 12) (v : BitVec p.WD) :
    ∃ k', (e.withKey k).regWrite lat idx v = (e.regWrite lat idx v).withKey k' := by
  have hsame := e.writeCheck_withKey k idx v
  by_cases hc : e.writeCheck idx v = .noError
  · rw [Engine.regWrite_accepted _ _ _ _ hc, Engine.regWrite_accepted _ _ _ _ (hsame.trans hc)]
    exact e.writeEffect_withKey k lat idx v
  · rw [Engine.regWrite_rejected _ _ _ _ hc, Engine.regWrite_rejected _ _ _ _ (hsame ▸ hc), hsame]
    exact ⟨k, e.raiseError_withKey k _ idx v⟩

end

/-! ### Bus accesses and the WAIT loop (R54, R73) -/

section
variable {s : State}

theorem handle_bus_bound {b : BusAccess} {a : Access s.params} (h : b.bind s.params = some a) :
    s.handle (.bus b) = .next (s.hostStep a) := by
  simp [State.handle, h]

theorem handle_bus_unbound {b : BusAccess} (h : b.bind s.params = none) :
    s.handle (.bus b) = .refused .unboundBusAccess := by
  simp [State.handle, h]

theorem waitStep_eq :
    s.waitStep = { s.hostRead 0x002 with
      inputs := if (s.readData 0x002).getLsbD 0 then .engine :: .waitIdle :: s.inputs else s.inputs } := by
  unfold State.waitStep
  dsimp only
  cases (s.readData 0x002).getLsbD 0 <;> rfl

end

end Sys2Proof.Machine

namespace Sys2Proof

open Sys2Proof.Machine Sys2Proof.Claims

/-! ### What keeps the engine's invariant (R31, R33, R40, R41, R42) -/

theorem engineInv_reset (p : Params) : EngineInv (Engine.reset p) where
  keyLen_le := Nat.zero_le _
  keyCount_le := Nat.zero_le _
  key_tail _ _ _ := fileRead_replicate_zero _
  error_clear _ := ⟨rfl, rfl, rfl⟩
  lwords_zero _ := fileRead_replicate_zero _
  running _ _ h := by cases h

section
variable {p : Params} {e : Engine p} (hi : EngineInv e)
include hi

theorem EngineInv.count {w : BitVec 32} {n : Nat} (hp : e.phase = .run w (n + 2)) :
    EngineInv { e with phase := .run w (n + 1) } :=
  { hi with
    running := fun w' n' h => by
      cases h
      obtain ⟨hd, -, hok⟩ := hi.running w _ hp
      exact ⟨hd, Nat.succ_pos n, hok⟩ }

/-- An idle engine owes nothing about a command in progress. -/
theorem EngineInv.finish : EngineInv e.finish :=
  { hi with running := fun _ _ h => by cases h }

theorem EngineInv.withBlk (b : Block p.W) : EngineInv { e with blk := b } :=
  { hi with }

/-- A cleared key buffer, with any round keys and KEY_VALID: what KEYCLR and SCHED leave (R97, R103). -/
theorem EngineInv.finish_clearKey (sk : Vector (Word p.W) p.T) (kv : Bool) :
    EngineInv { e.finish with skey := sk, keyValid := kv, key := fileZero _ 8, keyCount := 0 } :=
  { hi.finish with
    keyCount_le := Nat.zero_le _
    key_tail := fun _ _ _ => fileRead_zero _
    running := fun _ _ h => by cases h }

theorem EngineInv.effectOf_finish (i : Instr) : EngineInv (effectOf i e).finish := by
  cases i with
  | nop => exact hi.finish
  | keyclr => exact hi.finish_clearKey e.skey e.keyValid
  | sched =>
    exact { hi.finish_clearKey (keySchedule p e.key e.keyLen.toNat) true with
      lwords_zero := fun _ => fileRead_zero _ }
  | enc | dec | rotl | rotr | rotli | rotri | mulmix => exact hi.finish.withBlk _

/-! Each effect of a register write (R50, R51, R75, R95, R96, R121, R122). -/

theorem EngineInv.raiseError {code : ErrorCode} (hc : code ≠ .noError) (idx : BitVec 12) (v : BitVec p.WD) :
    EngineInv (e.raiseError code idx v) := by
  obtain ⟨-, h⟩ | ⟨hne, h⟩ := e.raiseError_cases code idx v <;> rw [h]
  · exact { hi with error_clear := fun h => absurd h hc }
  · exact { hi with error_clear := fun h => absurd h hne }

theorem EngineInv.clearError : EngineInv e.clearError :=
  { hi with error_clear := fun _ => ⟨rfl, rfl, rfl⟩ }

theorem EngineInv.writeCtrl (v : BitVec p.WD) : EngineInv (e.writeCtrl v) :=
  { hi with }

theorem EngineInv.writeStatus (v : BitVec p.WD) : EngineInv (e.writeStatus v) :=
  { hi with
    running := fun w n hp => by
      obtain ⟨hd, hn, hok⟩ := hi.running w n hp
      exact ⟨by simp [Engine.writeStatus, hd], hn, hok⟩ }

omit hi in
/-- A command that passed its own check may stand in PENDING once it is accepted (R74, R75). -/
theorem pendingOk_accept {i : Instr} (hc : e.issueCheck i = .noError) (w : BitVec 32) (lat : Nat) :
    PendingOk (e.accept w i lat) i := by
  cases i with
  | sched =>
    have hk : e.keyCount = e.keyLen := by
      by_contra hne
      simp [Engine.issueCheck, hne] at hc
    exact ⟨hk, rfl⟩
  | enc | dec =>
    cases hv : e.keyValid with
    | false => simp [Engine.issueCheck, hv] at hc
    | true => exact hv
  | nop | keyclr | rotl | rotr | rotli | rotri | mulmix => trivial

theorem EngineInv.accept {w : BitVec 32} {i : Instr} {lat : Nat} (hd : decode w = .ok i)
    (hc : e.issueCheck i = .noError) (hlat : 1 ≤ lat) : EngineInv (e.accept w i lat) := by
  have hok := pendingOk_accept hc w lat
  rw [Engine.accept_eq] at hok ⊢
  exact { hi with
    running := fun w' n h => by
      cases h
      exact ⟨rfl, hlat, i, hd, hok⟩ }

omit hi in
theorem phase_ne_run_of_not_busy (hb : e.busy = false) (w : BitVec 32) (n : Nat) : e.phase ≠ .run w n := by
  rw [e.busy_eq_false.1 hb]
  simp

theorem EngineInv.writeKeylen (hb : e.busy = false) {v : BitVec p.WD} (hv : (v.setWidth 32).toNat ≤ p.B_MAX) :
    EngineInv (e.writeKeylen v) :=
  { hi with
    keyLen_le := by
      show (v.setWidth 8).toNat ≤ p.B_MAX
      rw [BitVec.toNat_setWidth] at hv ⊢
      omega
    running := fun w n hp => absurd hp (phase_ne_run_of_not_busy hb w n) }

/-- The byte goes to K[COUNT], so what stands above the new COUNT stood above the old one. -/
theorem EngineInv.writeKeydata (hb : e.busy = false) (hk : e.keyCount.toNat ≠ p.B_MAX) (v : BitVec p.WD) :
    EngineInv (e.writeKeydata v) := by
  have hle := hi.keyCount_le
  have hmax : p.B_MAX < 256 := p.keyMax.isLt
  have hcount : (e.writeKeydata v).keyCount.toNat = e.keyCount.toNat + 1 := by
    show (e.keyCount + 1).toNat = _
    rw [BitVec.toNat_add]
    exact Nat.mod_eq_of_lt (show e.keyCount.toNat + 1 < 256 by omega)
  exact { hi with
    keyCount_le := by omega
    key_tail := fun n h hn => by
      rw [hcount] at h
      exact (fileRead_write_other _ (by omega) _).trans (hi.key_tail n (by omega) hn)
    running := fun w n hp => absurd hp (phase_ne_run_of_not_busy hb w n) }

theorem EngineInv.regWrite {lat : Nat} (hlat : 1 ≤ lat) (idx : BitVec 12) (v : BitVec p.WD) :
    EngineInv (e.regWrite lat idx v) := by
  obtain ⟨hc, h⟩ | h | ⟨-, h⟩ | ⟨-, h⟩ | ⟨-, h⟩ | ⟨i, -, -, hd, hc, h⟩ | ⟨-, hb, hv, h⟩ | ⟨-, hb, hk, h⟩ |
    ⟨r, -, -, h⟩ := e.regWrite_cases lat idx v <;> rw [h]
  · exact hi.raiseError hc idx v
  · exact hi
  · exact hi.writeCtrl v
  · exact hi.writeStatus v
  · exact hi.clearError
  · exact hi.accept hd hc hlat
  · exact hi.writeKeylen hb hv
  · exact hi.writeKeydata hb hk v
  · exact hi.withBlk _

end

/-! ### What a step does, in the words of the statements -/

/-- What a step to a next state does to the engine, said once: nothing, a count, a completion, a host write, or a
reset. -/
theorem step_engine_cases {s t : State} (h : step s = .next t) :
    ∃ e r d q n, t = ⟨s.params, e, r, d, q, n⟩ ∧
      (e = s.eng ∨
      (∃ w n, s.eng.phase = .run w (n + 2) ∧ e = { s.eng with phase := .run w (n + 1) }) ∨
      (∃ i, completes s i ∧ e = (effectOf i s.eng).finish) ∨
      (∃ lat idx v, writes s idx v ∧ e = s.eng.regWrite lat idx v) ∨
      (resets s ∧ e = Engine.reset s.params)) := by
  obtain ⟨_, _, _, _, -, rfl⟩ | ⟨w, n, -, -, hp, rfl⟩ | ⟨w, n, i, hr, hn, hp, hle, hd, rfl⟩ |
    ⟨lat, idx, v, hr, -, hw, rfl⟩ | ⟨hr, rfl⟩ := step_next_cases h
  · exact ⟨_, _, _, _, _, rfl, .inl rfl⟩
  · exact ⟨_, _, _, _, _, rfl, .inr (.inl ⟨w, n, hp, rfl⟩)⟩
  · exact ⟨_, _, _, _, _, rfl, .inr (.inr (.inl ⟨i, ⟨hr, hn, w, n, hp, hle, hd⟩, rfl⟩))⟩
  · exact ⟨_, _, _, _, _, rfl, .inr (.inr (.inr (.inl ⟨lat, idx, v, ⟨hr, hw⟩, rfl⟩)))⟩
  · exact ⟨_, _, _, _, _, rfl, .inr (.inr (.inr (.inr ⟨hr, rfl⟩)))⟩

/-- What a step does to the three stored status bits, said once (R27, R51, R75, R78, R103, R135). -/
theorem step_status_cases {s t : State} (h : step s = .next t) :
    (t.eng.busy = s.eng.busy ∧ t.eng.done = s.eng.done ∧ t.eng.keyValid = s.eng.keyValid) ∨
    (∃ i, accepts s i ∧ t.eng.busy = true ∧ t.eng.done = false ∧
      t.eng.keyValid = (s.eng.keyValid && !(i == .sched))) ∨
    (∃ i, completes s i ∧ t.eng.busy = false ∧ t.eng.done = true ∧
      t.eng.keyValid = (s.eng.keyValid || i == .sched)) ∨
    (∃ v, writes s 0x002#12 v ∧ t.eng.busy = s.eng.busy ∧ t.eng.done = (s.eng.done && !v.getLsbD 1) ∧
      t.eng.keyValid = s.eng.keyValid) ∨
    (resets s ∧ t.eng.busy = false ∧ t.eng.done = false ∧ t.eng.keyValid = false) := by
  obtain ⟨e, r, d, q, n, rfl, rfl | ⟨w, m, hp, rfl⟩ | ⟨i, hc, rfl⟩ | ⟨lat, idx, v, hw, rfl⟩ | ⟨hr, rfl⟩⟩ :=
    step_engine_cases h
  · exact .inl ⟨rfl, rfl, rfl⟩
  · exact .inl ⟨(s.eng.busy_eq_true.2 ⟨w, m + 2, hp⟩).symm, rfl, rfl⟩
  · exact .inr (.inr (.inl ⟨i, hc, rfl, rfl, effectOf_keyValid s.eng i⟩))
  · obtain ⟨hp, hd, hk, -, -⟩ | ⟨i, rfl, hb, hi, hc, h⟩ | ⟨rfl, h⟩ | ⟨r, -, h⟩ :=
      s.eng.regWrite_commandState_cases lat idx v
    · refine .inl ⟨?_, hd, hk⟩
      simp only [Engine.busy, hp]
    · refine .inr (.inl ⟨i, ⟨v, hw, hb, hi, hc⟩, ?_⟩)
      dsimp only
      rw [h, Engine.accept_eq]
      exact ⟨rfl, rfl, rfl⟩
    · refine .inr (.inr (.inr (.inl ⟨v, hw, ?_⟩)))
      simp only [h]
      exact ⟨rfl, rfl, rfl⟩
    · refine .inl ?_
      simp only [h]
      exact ⟨rfl, rfl, rfl⟩
  · exact .inr (.inr (.inr (.inr ⟨hr, rfl, rfl, rfl⟩)))

theorem step_roundKey_cases {s t : State} (h : step s = .next t) :
    (∀ k, roundKey t k = roundKey s k) ∨ completes s .sched ∨ resets s := by
  obtain ⟨e, r, d, q, n, rfl, rfl | ⟨w, m, -, rfl⟩ | ⟨i, hc, rfl⟩ | ⟨lat, idx, v, -, rfl⟩ | ⟨hr, rfl⟩⟩ :=
    step_engine_cases h
  · exact .inl fun _ => rfl
  · exact .inl fun _ => rfl
  · by_cases hi : i = .sched
    · exact .inr (.inl (hi ▸ hc))
    · exact .inl fun k => congrArg (fun sk => (fileRead sk k).toNat) (effectOf_skey s.eng hi)
  · exact .inl fun k => congrArg (fun sk => (fileRead sk k).toNat) (s.eng.regWrite_skey lat idx v)
  · exact .inr (.inr hr)

/-! ### Steps of two states that differ in the key buffer (R39) -/

/-- The state with the key buffer replaced: what `sameButKey` relates a state to. -/
abbrev stateWithKey (s : State) (k : Vector Byte s.params.B_MAX) : State := { s with eng := s.eng.withKey k }

theorem readData_stateWithKey (s : State) (k : Vector Byte s.params.B_MAX) (idx : BitVec 12) :
    (stateWithKey s k).readData idx = s.readData idx := rfl

/-- Two steps that go to states the same but for the key buffer, or stop alike. -/
inductive AlikeButKey : Host.Outcome State Fault Refusal → Host.Outcome State Fault Refusal → Prop
  | next {t t' : State} (h : sameButKey t t') : AlikeButKey (.next t) (.next t')
  | fault (r : Fault) : AlikeButKey (.fault r) (.fault r)
  | refused (r : Refusal) : AlikeButKey (.refused r) (.refused r)

/-- An engine step of this state completes SCHED. -/
def SchedDue (s : State) : Prop :=
  s.rstN = true ∧ ∃ w n, s.eng.phase = .run w n ∧ n ≤ 1 ∧ decode w = .ok .sched

section
variable (s : State) (k : Vector Byte s.params.B_MAX)

theorem completePending_alikeButKey {w : BitVec 32} (h : decode w ≠ .ok .sched) :
    AlikeButKey (s.completePending w) ((stateWithKey s k).completePending w) := by
  unfold State.completePending
  cases hd : decode w with
  | error r => exact .fault _
  | ok i =>
    obtain ⟨k', hk⟩ := effectOf_withKey s.eng k (i := i) (fun hi => h (hi ▸ hd))
    simp only [exec_eq]
    exact .next ⟨k', congrArg s.complete hk⟩

theorem engineStep_alikeButKey (h : ¬ SchedDue s) :
    AlikeButKey s.engineStep (stateWithKey s k).engineStep := by
  have hr' : (stateWithKey s k).rstN = s.rstN := rfl
  have hp' : (stateWithKey s k).eng.phase = s.eng.phase := rfl
  unfold State.engineStep
  rw [hr', hp']
  cases hr : s.rstN with
  | false => exact .next ⟨k, rfl⟩
  | true =>
    cases hp : s.eng.phase with
    | idle => exact .next ⟨k, rfl⟩
    | run w n =>
      by_cases hn : n - 1 = 0
      · simp only [hn, if_true]
        exact completePending_alikeButKey s k fun hd => h ⟨hr, w, n, hp, by omega, hd⟩
      · simp only [hn, if_true, if_false]
        exact .next ⟨k, rfl⟩

theorem hostWrite_sameButKey (idx : BitVec 12) (v : BitVec s.params.WD) :
    sameButKey (s.hostWrite idx v) ((stateWithKey s k).hostWrite idx v) := by
  have heng : ∃ k', (if s.rstN then (s.eng.withKey k).regWrite (latency s.draws) idx v else s.eng.withKey k) =
      (if s.rstN then s.eng.regWrite (latency s.draws) idx v else s.eng).withKey k' := by
    split
    · exact s.eng.regWrite_withKey k _ idx v
    · exact ⟨k, rfl⟩
  obtain ⟨k', hk⟩ := heng
  exact ⟨k', congrArg (fun e => { s with eng := e, hRdata := none, draws := s.draws + 1 }) hk⟩

theorem hostStep_sameButKey (a : Access s.params) :
    sameButKey (s.hostStep a) ((stateWithKey s k).hostStep a) := by
  cases a with
  | read idx => exact ⟨k, rfl⟩
  | write idx v => exact hostWrite_sameButKey s k idx v

theorem handle_alikeButKey (ev : Event s.params) (h : ev = .engine → ¬ SchedDue s) :
    AlikeButKey (s.handle ev) ((stateWithKey s k).handle ev) := by
  cases ev with
  | engine => exact engineStep_alikeButKey s k (h rfl)
  | host a => exact .next (hostStep_sameButKey s k a)
  | bus b =>
    cases hb : b.bind s.params with
    | none =>
      rw [handle_bus_unbound hb, handle_bus_unbound (s := stateWithKey s k) hb]
      exact .refused _
    | some a =>
      rw [handle_bus_bound hb, handle_bus_bound (s := stateWithKey s k) hb]
      exact .next (hostStep_sameButKey s k a)
  | assertReset => exact .next ⟨(Engine.reset s.params).key, rfl⟩
  | releaseReset => exact .next ⟨k, rfl⟩
  | waitIdle =>
    show AlikeButKey (.next s.waitStep) (.next (stateWithKey s k).waitStep)
    rw [waitStep_eq, waitStep_eq]
    exact .next ⟨k, rfl⟩

theorem step_alikeButKey (h : ¬ completes s .sched) : AlikeButKey (step s) (step (stateWithKey s k)) := by
  cases hq : s.inputs with
  | nil =>
    rw [step_nil hq, step_nil (s := stateWithKey s k) hq]
    exact engineStep_alikeButKey s k fun ⟨hr, hw⟩ => h ⟨hr, .inl hq, hw⟩
  | cons ev rest =>
    rw [step_cons hq, step_cons (s := stateWithKey s k) hq]
    refine handle_alikeButKey { s with inputs := rest } k ev fun hev ⟨hr, hw⟩ => h ⟨hr, .inr ?_, hw⟩
    rw [hq, hev]
    rfl

end

/-! ### The obligations -/

/-- Settles O49: each of the five things a step can do keeps the engine's invariant, and the engine changes with reset
asserted by the reset itself only. -/
theorem stepKeepsInvariant : Obligations.StepKeepsInvariant := by
  intro s t hs h
  obtain ⟨r, d, q, n, hr, rfl⟩ | ⟨w, n, hr, -, hp, rfl⟩ | ⟨w, n, i, hr, -, -, -, -, rfl⟩ |
    ⟨lat, idx, v, hr, hlat, -, rfl⟩ | ⟨-, rfl⟩ := step_next_cases h
  · refine ⟨hs.engine, fun h0 => hs.in_reset ?_⟩
    rcases hr with rfl | rfl
    · cases h0
    · exact h0
  · exact ⟨hs.engine.count hp, fun h0 => by simp [hr] at h0⟩
  · exact ⟨hs.engine.effectOf_finish i, fun h0 => by simp [hr] at h0⟩
  · exact ⟨hs.engine.regWrite hlat idx v, fun h0 => by simp [hr] at h0⟩
  · exact ⟨engineInv_reset s.params, fun _ => rfl⟩

/-- Settles O41: each register reads as the word its fields make, and that word's fields are digits of a number. -/
theorem registerReadLayout : Obligations.RegisterReadLayout := by
  intro p e
  have wide (x : BitVec 32) : (x.setWidth p.WD).toNat = x.toNat := toNat_setWidth_WD p (Nat.le_max_left _ _) x
  exact ⟨(wide _).trans (idWord_toNat p), (wide _).trans e.ctrlWord_toNat, (wide _).trans e.statusWord_toNat,
    (wide _).trans e.errorWord_toNat, rfl, rfl, (wide _).trans e.keylenWord_toNat, rfl,
    (wide _).trans e.keycntWord_toNat⟩

/-- Settles O42: by the register that stands at each index. -/
theorem fileReadsAndUnmappedReads : Obligations.FileReadsAndUnmappedReads := by
  intro p e
  refine ⟨fun n hn => e.regRead_blk (ofIndex_blkOfIndex p hn), fun i hi => e.regRead_skey hi, fun idx h => ?_⟩
  rw [e.regRead_unmapped (Reg.ofIndex_unmapped p h)]
  rfl

/-- Settles O52: of all a step can do, only SCHED's effect and reset touch the table. -/
theorem roundKeysChangeOnlyBySched : Obligations.RoundKeysChangeOnlyBySched :=
  ⟨fun _ _ h ⟨k, hne⟩ => (step_roundKey_cases h).resolve_left fun hsame => hne (hsame k),
    fun _ _ => congrArg BitVec.toNat (fileRead_replicate_zero _)⟩

/-- Settles O53: each bit's rise and fall, read off what a step does to the three of them. -/
theorem statusBitsChangeOnlyAsStated : Obligations.StatusBitsChangeOnlyAsStated := by
  intro s t h
  obtain ⟨hb, hd, hk⟩ | ⟨i, ha, hb, hd, hk⟩ | ⟨i, hc, hb, hd, hk⟩ | ⟨v, hw, hb, hd, hk⟩ | ⟨hr, hb, hd, hk⟩ :=
    step_status_cases h <;> rw [hb, hd, hk]
  · refine ⟨?_, ?_, ?_, ?_, ?_, ?_⟩ <;> simp +contextual
  · have sched_of_fall (h : s.eng.keyValid = true) (h' : (s.eng.keyValid && !(i == .sched)) = false) :
        i = .sched := by simpa [h] using h'
    exact ⟨fun _ _ => ⟨i, ha⟩, by simp, by simp, fun _ _ => .inl ⟨i, ha⟩, by simp +contextual,
      fun h h' => .inl (sched_of_fall h h' ▸ ha)⟩
  · have sched_of_rise (h : s.eng.keyValid = false) (h' : (s.eng.keyValid || i == .sched) = true) :
        i = .sched := by simpa [h] using h'
    exact ⟨by simp, fun _ _ => .inl ⟨i, hc⟩, fun _ _ => ⟨i, hc⟩, by simp, fun h h' => sched_of_rise h h' ▸ hc,
      by simp +contextual⟩
  · exact ⟨by simp +contextual, by simp +contextual, by simp +contextual,
      fun h h' => .inr (.inl ⟨v, hw, by simpa [h] using h'⟩), by simp +contextual, by simp +contextual⟩
  · exact ⟨by simp, fun _ _ => .inr hr, by simp, fun _ _ => .inr (.inr hr), by simp, fun _ _ => .inr hr⟩

/-- Settles O54: a completion writes its command's destination, and a host write the register at its index. -/
theorem blockRegistersChangeOnlyAsStated : Obligations.BlockRegistersChangeOnlyAsStated := by
  intro s t n hn h hne
  obtain ⟨e, r, d, q, k, rfl, rfl | ⟨w, m, -, rfl⟩ | ⟨i, hc, rfl⟩ | ⟨lat, idx, v, hw, rfl⟩ | ⟨hr, rfl⟩⟩ :=
    step_engine_cases h
  · exact absurd rfl hne
  · exact absurd rfl hne
  · have hblk := effectOf_changes_blk s.eng (i := i) (r := blkOfIndex n) (fun heq => hne (congrArg BitVec.toNat heq))
    obtain rfl | rfl | ⟨rs1, rs2, imm, hi⟩ := hblk
    · exact .inr (.inr (.inl hc))
    · exact .inr (.inr (.inr (.inl hc)))
    · refine .inr (.inr (.inr (.inr ⟨rs1, rs2, imm, ?_⟩)))
      obtain rfl | rfl | rfl | rfl | rfl := hi <;> tauto
  · have hidx := s.eng.ofIndex_of_regWrite_changes_blk (lat := lat) (idx := idx) (v := v) (r := blkOfIndex n)
      (fun heq => hne (congrArg BitVec.toNat heq))
    obtain rfl := index_of_ofIndex_blk hidx
    rw [regNum_blkOfIndex hn] at hw
    exact .inl ⟨v, hw⟩
  · exact .inr (.inl hr)

/-- Settles O55: the two states step alike, and no read looks at the key buffer. -/
theorem keyBufferReachesOnlySched : Obligations.KeyBufferReachesOnlySched := by
  rintro s s' ⟨k, hk⟩ h
  have halike : AlikeButKey (step s) (step s') := hk ▸ step_alikeButKey s k h
  generalize step s = o, step s' = o' at halike
  cases halike with
  | @next t t' ht =>
    obtain ⟨k', rfl⟩ := ht
    exact .inl ⟨t, _, rfl, rfl, ⟨k', rfl⟩, fun idx => congrArg BitVec.toNat (readData_stateWithKey t k' idx).symm⟩
  | fault r => exact .inr (.inl ⟨r, rfl, rfl⟩)
  | refused r => exact .inr (.inr ⟨r, rfl, rfl⟩)

end Sys2Proof

/-! The proofs of the statements of 20_memory.md: host steps (R45), register writes that are never gated and writes of
the block registers (R49 to R51, R122), the byte order of a block (R52), and BUS_BINDING (R46, R53, R54). -/

namespace Sys2Proof.Machine

/-! ### Host steps (R45) -/

theorem step_host {s : State} {rest : List (Event s.params)} {a : Access s.params} (h : s.inputs = .host a :: rest) :
    step s = .next (State.hostStep { s with inputs := rest } a) := by
  rw [step_cons h]
  rfl

theorem State.hostWrite_of_rstN {s : State} (h : s.rstN = true) (idx : BitVec 12) (v : BitVec s.params.WD) :
    s.hostWrite idx v =
      { s with eng := s.eng.regWrite (latency s.draws) idx v, hRdata := none, draws := s.draws + 1 } := by
  rw [State.hostWrite, if_pos h]

/-! ### Writes of CTRL, STATUS, ERROR and the block registers (R49, R50, R51, R122) -/

section
variable {p : Params} (e : Engine p) (lat : Nat) (v : BitVec p.WD)

theorem Engine.regWrite_ctrl : e.regWrite lat 0x001#12 v = e.writeCtrl v :=
  e.regWrite_accepted lat _ v rfl

theorem Engine.regWrite_status : e.regWrite lat 0x002#12 v = e.writeStatus v :=
  e.regWrite_accepted lat _ v rfl

theorem Engine.regWrite_error : e.regWrite lat 0x003#12 v = e.clearError :=
  e.regWrite_accepted lat _ v rfl

theorem Engine.writeStatus_eq :
    e.writeStatus v = { e with done := if v.getLsbD 1 then false else e.done } := by
  unfold Engine.writeStatus
  cases v.getLsbD 1 <;> simp

variable {e lat v} {idx : BitVec 12} {r : BlkReg} (h : Reg.ofIndex p idx = .blk r)
include h

theorem Engine.writeCheck_blk : e.writeCheck idx v = if e.busy then .busy else .noError := by
  simp only [Engine.writeCheck, h, Engine.blkCheck]

theorem Engine.regWrite_blk_busy (hb : e.busy = true) : e.regWrite lat idx v = e.raiseError .busy idx v := by
  have hc : e.writeCheck idx v = .busy := by rw [Engine.writeCheck_blk h, if_pos hb]
  rw [e.regWrite_rejected lat idx v (by simp [hc]), hc]

theorem Engine.regWrite_blk_idle (hb : e.busy = false) : e.regWrite lat idx v = e.writeBlk r v := by
  rw [e.regWrite_accepted lat idx v (by simp [Engine.writeCheck_blk h, hb])]
  simp only [Engine.writeEffect, h]

end

/-! ### Little-endian sums and their bytes (R52) -/

section
variable (x : Nat → Byte)

theorem leValue_eq_sum (n : Nat) : leValue x n = ∑ k ∈ Finset.range n, (x k).toNat * 2 ^ (8 * k) := by
  induction n with
  | zero => rfl
  | succ n ih => rw [Finset.sum_range_succ, ← ih, leValue]

theorem leValue_lt (n : Nat) : leValue x n < 2 ^ (8 * n) := by
  induction n with
  | zero => exact Nat.one_pos
  | succ n ih =>
    have hx : (x n).toNat + 1 ≤ 2 ^ 8 := (x n).isLt
    calc leValue x n + (x n).toNat * 2 ^ (8 * n)
        < 2 ^ (8 * n) + (x n).toNat * 2 ^ (8 * n) := Nat.add_lt_add_right ih _
      _ = ((x n).toNat + 1) * 2 ^ (8 * n) := (Nat.add_comm _ _).trans (Nat.succ_mul _ _).symm
      _ ≤ 2 ^ 8 * 2 ^ (8 * n) := Nat.mul_le_mul_right _ hx
      _ = 2 ^ (8 * (n + 1)) := by rw [Nat.mul_succ, pow_add, Nat.mul_comm]

/-- Byte `n` stands above the sum of the bytes before it. -/
theorem leValue_succ_div (n : Nat) : leValue x (n + 1) / 2 ^ (8 * n) = (x n).toNat := by
  rw [leValue, Nat.add_mul_div_right _ _ (Nat.two_pow_pos _), Nat.div_eq_of_lt (leValue_lt x n), Nat.zero_add]

/-- The low bytes of a sum are the sum of the low bytes. -/
theorem leValue_mod {k n : Nat} (h : k ≤ n) : leValue x n % 2 ^ (8 * k) = leValue x k := by
  induction n, h using Nat.le_induction with
  | base => exact Nat.mod_eq_of_lt (leValue_lt x k)
  | succ n hk ih =>
    have hd : 2 ^ (8 * k) ∣ (x n).toNat * 2 ^ (8 * n) :=
      Dvd.dvd.mul_left (pow_dvd_pow 2 (Nat.mul_le_mul_left 8 hk)) _
    rw [leValue, Nat.add_mod, Nat.mod_eq_zero_of_dvd hd, Nat.add_zero, Nat.mod_mod, ih]

theorem byteOf_toNat {w : Nat} (v : Word w) (k : Nat) : (byteOf v k).toNat = v.toNat / 2 ^ (8 * k) % 2 ^ 8 := by
  rw [byteOf, BitVec.extractLsb'_toNat, Nat.shiftRight_eq_div_pow]

theorem byteOf_ofNat_leValue {w n k : Nat} (hw : n * 8 = w) (hk : k < n) :
    byteOf (BitVec.ofNat w (leValue x n)) k = x k := by
  have hlt : leValue x n < 2 ^ w := by rw [← hw, Nat.mul_comm]; exact leValue_lt x n
  apply BitVec.eq_of_toNat_eq
  calc (byteOf (BitVec.ofNat w (leValue x n)) k).toNat
      = leValue x n / 2 ^ (8 * k) % 2 ^ 8 := by rw [byteOf_toNat, BitVec.toNat_ofNat, Nat.mod_eq_of_lt hlt]
    _ = leValue x n % 2 ^ (8 * (k + 1)) / 2 ^ (8 * k) := by
        rw [Nat.mul_succ, pow_add, Nat.mod_mul_right_div_self]
    _ = (x k).toNat := by rw [leValue_mod x hk, leValue_succ_div]

theorem leValue_byteOf {w : Nat} (v : Word w) (n : Nat) : leValue (byteOf v) n = v.toNat % 2 ^ (8 * n) := by
  induction n with
  | zero => exact (Nat.mod_one _).symm
  | succ n ih => rw [leValue, ih, byteOf_toNat, Nat.mul_succ, pow_add, Nat.mod_mul, Nat.mul_comm (2 ^ (8 * n))]

theorem leValue_congr {x y : Nat → Byte} {n : Nat} (h : ∀ k, k < n → x k = y k) : leValue x n = leValue y n := by
  simp only [leValue_eq_sum]
  exact Finset.sum_congr rfl fun k hk => by rw [h k (Finset.mem_range.1 hk)]

/-! ### A block and its bytes (R52) -/

theorem blockOfBytes_get (w : Nat) {n : Nat} (h : n < 4) :
    (blockOfBytes w x).get (blkOfIndex n) = wordOfBytes w x n := by
  match n, h with
  | 0, _ | 1, _ | 2, _ | 3, _ => rfl

theorem wordOfBytes_toNat (wd : Width) (n : Nat) :
    (wordOfBytes wd.bits x n).toNat = leValue (fun k => x (n * (wd.bits / 8) + k)) (wd.bits / 8) := by
  have hlt := leValue_lt (fun k => x (n * (wd.bits / 8) + k)) (wd.bits / 8)
  rw [Nat.mul_comm 8, wd.bits_div_eight_mul] at hlt
  rw [wordOfBytes, BitVec.toNat_ofNat, Nat.mod_eq_of_lt hlt]

end

section
variable {w : Nat} (b : Block w)

/-- Byte `k` of word `n`. -/
theorem byteOfBlock_mul_add (n : Nat) {k : Nat} (h : k < w / 8) :
    byteOfBlock b (n * (w / 8) + k) = byteOf (b.get (blkOfIndex n)) k := by
  have hdiv : (n * (w / 8) + k) / (w / 8) = n := by
    rw [Nat.mul_comm, Nat.mul_add_div (by omega), Nat.div_eq_of_lt h, Nat.add_zero]
  rw [byteOfBlock, hdiv, Nat.mul_add_mod_of_lt h]

end

theorem blkOfIndex_regNum (r : BlkReg) : blkOfIndex (Claims.regNum r) = r := by
  cases r <;> rfl

theorem regNum_lt (r : BlkReg) : Claims.regNum r < 4 := by
  cases r <;> decide

theorem blockOfBytes_byteOfBlock (wd : Width) (b : Block wd.bits) : blockOfBytes wd.bits (byteOfBlock b) = b := by
  ext r : 1
  apply BitVec.eq_of_toNat_eq
  rw [← blkOfIndex_regNum r, blockOfBytes_get _ _ (regNum_lt r), wordOfBytes_toNat,
    leValue_congr fun k hk => byteOfBlock_mul_add b _ hk, leValue_byteOf, Nat.mul_comm, wd.bits_div_eight_mul,
    Nat.mod_eq_of_lt (BitVec.isLt _)]

theorem byteOfBlock_blockOfBytes (wd : Width) (x : Nat → Byte) {i : Nat} (h : i < 4 * (wd.bits / 8)) :
    byteOfBlock (blockOfBytes wd.bits x) i = x i := by
  have hU : 0 < wd.bits / 8 := by omega
  have hn : i / (wd.bits / 8) < 4 := (Nat.div_lt_iff_lt_mul hU).2 h
  rw [byteOfBlock, blockOfBytes_get x _ hn, wordOfBytes, byteOf_ofNat_leValue _ wd.bits_div_eight_mul
    (Nat.mod_lt _ hU), Nat.div_add_mod']

/-! ### BUS_BINDING (R46, R53, R54) -/

theorem WD_div_eight_pos (p : Params) : 0 < p.WD / 8 :=
  Nat.div_pos ((by decide : 8 ≤ 32).trans (Nat.le_max_left 32 p.W)) (by decide)

section
variable {p : Params} {b : BusAccess}

theorem BusAccess.bind_eq_some {a : Access p} :
    b.bind p = some a ↔ ∃ idx, boundIndex (p.WD / 8) p.binding b.spans = some idx ∧ b.access p idx = a :=
  Option.map_eq_some_iff

/-- A bound access, said once: the default binding's place of its register, or a platform row whose spans carry the
whole register. -/
theorem BusAccess.bind_cases {a : Access p} (h : b.bind p = some a) :
    ∃ idx, a = b.access p idx ∧
      ((p.binding = .default ∧ b.spans = [⟨idx.toNat * (p.WD / 8), p.WD / 8⟩]) ∨
      (∃ rows r, p.binding = .platform rows ∧ r ∈ rows ∧ r.spans = b.spans ∧
        spanBytes b.spans = p.WD / 8 ∧ lowHalfFirst (p.WD / 8) b.spans = true)) := by
  obtain ⟨idx, hidx, rfl⟩ := BusAccess.bind_eq_some.1 h
  refine ⟨idx, rfl, ?_⟩
  obtain hd | ⟨rows, r, hp, hr, hs, -, hbytes, hlow⟩ := boundIndex_some hidx
  · exact .inl hd
  · exact .inr ⟨rows, r, hp, hr, hs, hbytes, hlow⟩

theorem BusAccess.bind_spanBytes {a : Access p} (h : b.bind p = some a) : spanBytes b.spans = p.WD / 8 := by
  obtain ⟨idx, -, ⟨-, hs⟩ | ⟨-, -, -, -, -, hbytes, -⟩⟩ := BusAccess.bind_cases h
  · rw [hs]
    rfl
  · exact hbytes

theorem BusAccess.bind_default (hp : p.binding = .default) {idx : BitVec 12}
    (hs : b.spans = [⟨idx.toNat * (p.WD / 8), p.WD / 8⟩]) : b.bind p = some (b.access p idx) := by
  rw [BusAccess.bind_eq_some, hp, hs]
  exact ⟨idx, boundIndex_default (WD_div_eight_pos p) idx, rfl⟩

theorem BusAccess.spans_of_bind_default (hp : p.binding = .default) (h : b.bind p ≠ none) :
    ∃ o, b.spans = [⟨o, p.WD / 8⟩] ∧ o % (p.WD / 8) = 0 ∧ o < 4096 * (p.WD / 8) := by
  obtain ⟨a, ha⟩ := Option.ne_none_iff_exists'.1 h
  obtain ⟨idx, -, ⟨-, hs⟩ | ⟨rows, r, hpl, -⟩⟩ := BusAccess.bind_cases ha
  · exact ⟨_, hs, Nat.mul_mod_left _ _, Nat.mul_lt_mul_of_pos_right idx.isLt (WD_div_eight_pos p)⟩
  · rw [hp] at hpl
    cases hpl

theorem BusAccess.bind_platform_none {rows : List BindingRow} (hp : p.binding = .platform rows)
    (hne : ∀ x ∈ rows, x.spans ≠ b.spans) : b.bind p = none := by
  by_contra h
  obtain ⟨a, ha⟩ := Option.ne_none_iff_exists'.1 h
  obtain ⟨idx, -, ⟨hd, -⟩ | ⟨rows', r, hpl, hr, hs, -⟩⟩ := BusAccess.bind_cases ha
  · rw [hp] at hd
    cases hd
  · rw [hp] at hpl
    cases hpl
    exact hne r hr hs

end

theorem joinBeats_singleton (x : WriteBeat) : joinBeats [x] = x.data.toNat :=
  Nat.add_zero _

theorem access_write_singleton (p : Params) (idx : BitVec 12) (x : WriteBeat) :
    (BusAccess.write [x]).access p idx = .write idx (x.data.setWidth p.WD) := by
  simp only [BusAccess.access, joinBeats_singleton, BitVec.ofNat_toNat]

/-- A 64-bit register in two accesses of 32 bits: the lowest bits stand at the lower address (R53). -/
theorem le_of_lowHalfFirst_halves {o o' : Nat} (h : lowHalfFirst 8 [⟨o, 4⟩, ⟨o', 4⟩] = true) : o + 4 ≤ o' := by
  simpa [lowHalfFirst, spansBelow, spanBytes] using h

theorem joinBeats_halves (o o' : Nat) (lo hi : BitVec 32) :
    joinBeats [⟨⟨o, 4⟩, lo⟩, ⟨⟨o', 4⟩, hi⟩] = lo.toNat + 2 ^ 32 * hi.toNat := by
  simp only [joinBeats, Nat.mul_zero, Nat.add_zero]

/-- A bound write of a 64-bit register in two halves (R53). -/
theorem bind_halves {p : Params} {o o' : Nat} {lo hi : BitVec 32} {idx : BitVec 12} {v : BitVec p.WD}
    (hWD : p.WD = 64) (h : (BusAccess.write [⟨⟨o, 4⟩, lo⟩, ⟨⟨o', 4⟩, hi⟩]).bind p = some (.write idx v)) :
    o + 4 ≤ o' ∧ v.toNat = lo.toNat + 2 ^ 32 * hi.toNat := by
  obtain ⟨idx', ha, ⟨-, hs⟩ | ⟨-, -, -, -, -, -, hlow⟩⟩ := BusAccess.bind_cases h
  · simp [BusAccess.spans] at hs
  · rw [hWD] at hlow
    cases ha
    refine ⟨le_of_lowHalfFirst_halves hlow, ?_⟩
    rw [joinBeats_halves, BitVec.toNat_ofNat, hWD]
    omega

/-- A step that meets a bound access is the host step it stands for (R46). -/
theorem step_bus_bound {s : State} {rest : List (Event s.params)} {b : BusAccess} {a : Access s.params}
    (hq : s.inputs = .bus b :: rest) (h : b.bind s.params = some a) :
    step s = step { s with inputs := .host a :: rest } := by
  calc step s = State.handle { s with inputs := rest } (.bus b) := step_cons hq
    _ = .next (State.hostStep { s with inputs := rest } a) := handle_bus_bound h
    _ = step { s with inputs := .host a :: rest } := (step_host (s := { s with inputs := .host a :: rest }) rfl).symm

/-- A step that meets any other access is refused by name (R54). -/
theorem step_bus_unbound {s : State} {rest : List (Event s.params)} {b : BusAccess}
    (hq : s.inputs = .bus b :: rest) (h : b.bind s.params = none) : step s = .refused .unboundBusAccess := by
  rw [step_cons hq]
  exact handle_bus_unbound h

end Sys2Proof.Machine

namespace Sys2Proof

open Sys2Proof.Machine Sys2Proof.Claims

/-! ### The obligations -/

/-- Settles O56: which accesses a binding binds, and to what, then what a step does with a bound and an unbound one. -/
theorem busBindingGivesHostSteps : Obligations.BusBindingGivesHostSteps := by
  refine ⟨fun p idx hp => ⟨BusAccess.bind_default hp rfl, fun v => ?_⟩,
    fun p b hp h => BusAccess.spans_of_bind_default hp h,
    fun p b earlier later r hp he hs hbytes hlow => ?_,
    fun p b rows hp hne => BusAccess.bind_platform_none hp hne,
    fun p b a h => ⟨BusAccess.bind_spanBytes h, ?_⟩,
    fun p o o' lo hi idx v hWD h => ?_,
    fun s rest b a hq h => step_bus_bound hq h,
    fun s rest b hq h => step_bus_unbound hq h⟩
  · rw [BusAccess.bind_default hp rfl, access_write_singleton]
  · rw [BusAccess.bind_eq_some, hp, hs]
    exact ⟨r.idx, boundIndex_row he hbytes hlow, rfl⟩
  · obtain ⟨idx, ha, -⟩ := BusAccess.bind_cases h
    exact ⟨idx, ha⟩
  · obtain ⟨hle, hv⟩ := bind_halves hWD h
    have hlo := lo.isLt
    exact ⟨hle, by omega, by omega⟩

/-- Settles O57: each word is the sum of its bytes, each byte a digit of its word, so the two conversions are
inverse. -/
theorem blockByteOrder : Obligations.BlockByteOrder := by
  intro wd x b
  refine ⟨fun n hn => ?_, fun n k _ hk => ?_, fun n hn => regNum_blkOfIndex hn, blockOfBytes_byteOfBlock wd b,
    fun i hi => byteOfBlock_blockOfBytes wd x hi⟩
  · rw [blockOfBytes_get x _ hn, wordOfBytes_toNat, leValue_eq_sum]
  · rw [byteOfBlock_mul_add b n hk, byteOf_toNat]

/-- Settles O27: a host event is one step, which leaves the engine to its register's rule, or alone for a read. -/
theorem hostStepsAreAtomic : Obligations.HostStepsAreAtomic := by
  refine fun s rest => ⟨fun idx hq => ⟨_, _, step_host hq⟩, fun idx v hq hr => ?_⟩
  have hw := State.hostWrite_of_rstN (s := { s with inputs := rest }) hr idx v
  exact ⟨latency s.draws, none, s.draws + 1, latency_pos _, (step_host hq).trans (congrArg _ hw)⟩

/-- Settles O35: no check stops these three writes, so each has its own register's effect. -/
theorem ungatedRegisterWrites : Obligations.UngatedRegisterWrites := fun _ e lat v =>
  ⟨e.regWrite_ctrl lat v, (e.regWrite_status lat v).trans (e.writeStatus_eq v), e.regWrite_error lat v⟩

/-- Settles O36: by the block register that stands at the index, whose one check is BUSY. -/
theorem blockRegisterWrites : Obligations.BlockRegisterWrites := by
  intro p e lat v n hn
  have hidx := ofIndex_blkOfIndex p hn
  refine ⟨fun hb => Engine.regWrite_blk_busy hidx hb, fun hb => ?_⟩
  dsimp only
  rw [Engine.regWrite_blk_idle hidx hb]
  refine ⟨?_, fun r hr => e.blk.get_set_other _ r _ hr, rfl⟩
  rw [Engine.writeBlk, Engine.setBlk_blk, Block.get_set_same, BitVec.toNat_setWidth]

end Sys2Proof

/-! The proofs of the statements of 30_encoding.md: the fields of a command word (R62), the decoder against the encoder
and the opcode map (R63 to R69), illegal words at CMD (R114), and the pseudo-commands (R73). -/

namespace Sys2Proof

open Sys2Proof.Machine Sys2Proof.Claims

/-! ### Register fields (R64) -/

@[simp] theorem BlkReg.ofBits_toBits (r : BlkReg) : BlkReg.ofBits r.toBits = r := by cases r <;> rfl

@[simp] theorem BlkReg.toBits_ofBits (b : BitVec 2) : (BlkReg.ofBits b).toBits = b := by
  revert b
  decide

theorem BlkReg.toBits_toNat (r : BlkReg) : r.toBits.toNat = regNum r := by cases r <;> rfl

theorem fieldIs_iff {w : BitVec 32} {k : Nat} {b : BitVec 2} {r : BlkReg} (h : b.toNat = w.toNat / 2 ^ k % 4) :
    fieldIs w k r ↔ BlkReg.ofBits b = r := by
  rw [fieldIs, ← h, ← r.toBits_toNat, BitVec.toNat_inj]
  exact ⟨fun hb => hb ▸ r.ofBits_toBits, fun hr => hr ▸ (BlkReg.toBits_ofBits b).symm⟩

/-! ### A word and its fields (R62) -/

section
variable (w : BitVec 32)

theorem opOf_toNat : (opOf w).toNat = w.toNat % 16 := by
  simp [opOf, BitVec.extractLsb'_toNat]

theorem rdOf_toNat : (rdOf w).toNat = w.toNat / 2 ^ 4 % 4 := by
  simp [rdOf, BitVec.extractLsb'_toNat, Nat.shiftRight_eq_div_pow]

theorem rs1Of_toNat : (rs1Of w).toNat = w.toNat / 2 ^ 6 % 4 := by
  simp [rs1Of, BitVec.extractLsb'_toNat, Nat.shiftRight_eq_div_pow]

theorem rs2Of_toNat : (rs2Of w).toNat = w.toNat / 2 ^ 8 % 4 := by
  simp [rs2Of, BitVec.extractLsb'_toNat, Nat.shiftRight_eq_div_pow]

theorem immOf_toNat : (immOf w).toNat = w.toNat / 2 ^ 10 % 64 := by
  simp [immOf, BitVec.extractLsb'_toNat, Nat.shiftRight_eq_div_pow]

theorem immOf_le : (immOf w).toNat ≤ 63 := Nat.le_of_lt_succ (immOf w).isLt

theorem reservedOf_toNat : (reservedOf w).toNat = w.toNat / 2 ^ 16 := by
  have := w.isLt
  simp only [reservedOf, BitVec.extractLsb'_toNat, Nat.shiftRight_eq_div_pow]
  omega

end

/-- Two words are equal exactly when they agree field by field. -/
theorem eq_iff_fields {w x : BitVec 32} :
    w = x ↔ reservedOf w = reservedOf x ∧ opOf w = opOf x ∧ rdOf w = rdOf x ∧ rs1Of w = rs1Of x ∧
      rs2Of w = rs2Of x ∧ immOf w = immOf x := by
  simp only [← BitVec.toNat_inj, reservedOf_toNat, opOf_toNat, rdOf_toNat, rs1Of_toNat, rs2Of_toNat, immOf_toNat]
  omega

/-- A mask acts field by field. -/
theorem and_eq_iff_fields {w m c : BitVec 32} :
    w &&& m = c ↔
      reservedOf w &&& reservedOf m = reservedOf c ∧ opOf w &&& opOf m = opOf c ∧ rdOf w &&& rdOf m = rdOf c ∧
      rs1Of w &&& rs1Of m = rs1Of c ∧ rs2Of w &&& rs2Of m = rs2Of c ∧ immOf w &&& immOf m = immOf c := by
  rw [eq_iff_fields]
  simp only [reservedOf, opOf, rdOf, rs1Of, rs2Of, immOf, BitVec.extractLsb'_and]

section
variable {op : BitVec 4} {rd rs1 rs2 : BitVec 2} {imm : BitVec 6}

theorem packWord_toNat :
    (packWord op rd rs1 rs2 imm).toNat =
      op.toNat + 2 ^ 4 * rd.toNat + 2 ^ 6 * rs1.toNat + 2 ^ 8 * rs2.toNat + 2 ^ 10 * imm.toNat := by
  rw [packWord, toNat_append_add]
  simp only [toNat_append_add, BitVec.toNat_ofNat]
  omega

/-- The fields of a packed word are the five it was packed from, and its reserved bits are zero. -/
theorem fields_packWord :
    reservedOf (packWord op rd rs1 rs2 imm) = 0 ∧ opOf (packWord op rd rs1 rs2 imm) = op ∧
    rdOf (packWord op rd rs1 rs2 imm) = rd ∧ rs1Of (packWord op rd rs1 rs2 imm) = rs1 ∧
    rs2Of (packWord op rd rs1 rs2 imm) = rs2 ∧ immOf (packWord op rd rs1 rs2 imm) = imm := by
  have := op.isLt
  have := rd.isLt
  have := rs1.isLt
  have := rs2.isLt
  have := imm.isLt
  simp only [← BitVec.toNat_inj, reservedOf_toNat, opOf_toNat, rdOf_toNat, rs1Of_toNat, rs2Of_toNat, immOf_toNat,
    packWord_toNat, BitVec.ofNat_eq_ofNat, BitVec.toNat_ofNat]
  omega

/-- A word is packed from five fields exactly when they are its fields and its reserved bits are zero. -/
theorem packWord_eq_iff {w : BitVec 32} :
    packWord op rd rs1 rs2 imm = w ↔
      reservedOf w = 0 ∧ opOf w = op ∧ rdOf w = rd ∧ rs1Of w = rs1 ∧ rs2Of w = rs2 ∧ immOf w = imm := by
  rw [eq_comm, eq_iff_fields]
  simp only [fields_packWord]

end

/-! ### The decoder (R67, R68, R69) -/

theorem ifUnusedZero_eq_ok {zero : Bool} {i j : Instr} : ifUnusedZero zero i = .ok j ↔ zero = true ∧ i = j := by
  cases zero <;> simp [ifUnusedZero]

theorem exists_ifUnusedZero_eq_error {zero : Bool} {i : Instr} :
    (∃ r, ifUnusedZero zero i = .error r) ↔ zero = false := by
  cases zero <;> simp [ifUnusedZero]

theorem decode_encode {i : Instr} (h : i.wellFormed = true) : decode (encode i) = .ok i := by
  cases i with
  | nop | keyclr | sched | enc | dec => rfl
  | rotl rd rs1 rs2 | rotr rd rs1 rs2 => simp [decode, encode, fields_packWord, ifUnusedZero]
  | rotli rd rs1 imm | rotri rd rs1 imm =>
    have himm : imm % 64 = imm := Nat.mod_eq_of_lt (Nat.lt_succ_of_le (of_decide_eq_true h))
    simp [decode, encode, fields_packWord, ifUnusedZero, himm]
  | mulmix rd rs1 => simp [decode, encode, fields_packWord, ifUnusedZero]

/-- The decoder answers a command only where the word is packed from that command's fields. -/
theorem encode_of_decode {w : BitVec 32} {i : Instr} (h : decode w = .ok i) : i.wellFormed = true ∧ encode i = w := by
  unfold decode at h
  dsimp only at h
  split at h
  case isFalse => cases h
  case isTrue hres =>
  split at h
  case h_11 => cases h
  all_goals
    rename_i hop
    obtain ⟨hz, rfl⟩ := ifUnusedZero_eq_ok.1 h
    simp only [Bool.and_eq_true, beq_iff_eq] at hres hz
    simp [encode, packWord_eq_iff, Instr.wellFormed, hres, BitVec.toNat_eq (x := opOf w), hop, hz, immOf_le]

theorem decode_eq_ok_iff {w : BitVec 32} {i : Instr} : decode w = .ok i ↔ i.wellFormed = true ∧ encode i = w :=
  ⟨encode_of_decode, fun ⟨h, hw⟩ => hw ▸ decode_encode h⟩

/-- The illegal words, field by field: the reserved bits, a reserved OP, and per opcode the fields it does not use. -/
theorem exists_decode_eq_error_iff (w : BitVec 32) : (∃ r, decode w = .error r) ↔
    reservedOf w ≠ 0 ∨ 10 ≤ (opOf w).toNat ∨
    ((opOf w).toNat ≤ 4 ∧ ¬ (rdOf w = 0 ∧ rs1Of w = 0 ∧ rs2Of w = 0 ∧ immOf w = 0)) ∨
    (((opOf w).toNat = 5 ∨ (opOf w).toNat = 6) ∧ immOf w ≠ 0) ∨
    (((opOf w).toNat = 7 ∨ (opOf w).toNat = 8) ∧ rs2Of w ≠ 0) ∨
    ((opOf w).toNat = 9 ∧ ¬ (rs2Of w = 0 ∧ immOf w = 0)) := by
  unfold decode
  dsimp only
  split
  case isFalse hres => exact iff_of_true ⟨_, rfl⟩ (.inl (by simpa using hres))
  case isTrue hres =>
  rw [beq_iff_eq] at hres
  split
  case h_11 => exact iff_of_true ⟨_, rfl⟩ (.inr (.inl (by grind)))
  all_goals
    rename_i hop
    simp [exists_ifUnusedZero_eq_error, hres, hop]

/-! ### The opcode map (R67) -/

/-- The mask of a row of the opcode map: the reserved bits, OP, and each other field where it is asked for. -/
def fieldMask (rd rs1 rs2 imm : Bool) : BitVec 32 :=
  BitVec.allOnes 16 ++ BitVec.fill 6 imm ++ BitVec.fill 2 rs2 ++ BitVec.fill 2 rs1 ++ BitVec.fill 2 rd ++
    BitVec.allOnes 4

theorem fields_fieldMask (rd rs1 rs2 imm : Bool) :
    reservedOf (fieldMask rd rs1 rs2 imm) = BitVec.allOnes 16 ∧ opOf (fieldMask rd rs1 rs2 imm) = BitVec.allOnes 4 ∧
    rdOf (fieldMask rd rs1 rs2 imm) = BitVec.fill 2 rd ∧ rs1Of (fieldMask rd rs1 rs2 imm) = BitVec.fill 2 rs1 ∧
    rs2Of (fieldMask rd rs1 rs2 imm) = BitVec.fill 2 rs2 ∧ immOf (fieldMask rd rs1 rs2 imm) = BitVec.fill 6 imm := by
  revert rd rs1 rs2 imm
  decide

theorem and_fill_eq_zero_iff {n : Nat} {x : BitVec n} {keep : Bool} :
    x &&& BitVec.fill n keep = 0 ↔ (keep = true → x = 0) := by
  cases keep with
  | false => simp [BitVec.fill]
  | true => simp [BitVec.fill, BitVec.neg_one_eq_allOnes, BitVec.and_allOnes]

/-- A row's words: no reserved bit, the row's opcode, and zero in every field its mask asks for. -/
theorem and_mask_eq_iff {x m c : BitVec 32} (op : BitVec 4) (rd rs1 rs2 imm : Bool)
    (hm : m = fieldMask rd rs1 rs2 imm) (hc : c = packWord op 0 0 0 0) :
    x &&& m = c ↔ reservedOf x = 0 ∧ opOf x = op ∧ (rd = true → rdOf x = 0) ∧ (rs1 = true → rs1Of x = 0) ∧
      (rs2 = true → rs2Of x = 0) ∧ (imm = true → immOf x = 0) := by
  simp only [hm, hc, and_eq_iff_fields, fields_fieldMask, fields_packWord, BitVec.and_allOnes, and_fill_eq_zero_iff]

end Sys2Proof

namespace Sys2Proof.Machine

/-! ### Illegal words at CMD (R114, R121) -/

section
variable {p : Params} (e : Engine p)

/-- Recording an error touches the error fields only (R123). -/
theorem Engine.raiseError_eq (code : ErrorCode) (idx : BitVec 12) (v : BitVec p.WD) :
    e.raiseError code idx v =
      { e with
        errCode := (e.raiseError code idx v).errCode
        errMore := (e.raiseError code idx v).errMore
        errIdx := (e.raiseError code idx v).errIdx
        errData := (e.raiseError code idx v).errData } := by
  obtain ⟨-, h⟩ | ⟨-, h⟩ := e.raiseError_cases code idx v <;> rw [h]

theorem Engine.regWrite_cmd_illegal (hb : e.busy = false) {v : BitVec p.WD} {r : IllegalWord}
    (hd : decode (v.setWidth 32) = .error r) (lat : Nat) :
    e.regWrite lat 0x005#12 v = e.raiseError .illegalCmd 0x005#12 v := by
  have hc : e.writeCheck 0x005#12 v = .illegalCmd := by
    simp [Engine.writeCheck, Engine.cmdCheck, hb, hd]
  rw [e.regWrite_rejected lat _ v (by simp [hc]), hc]

/-! ### The WAIT loop (R27, R73) -/

/-- Bit 0 of a read of STATUS is BUSY. -/
theorem Engine.regRead_status_getLsbD_zero : (e.regRead 0x002#12).getLsbD 0 = e.busy := by
  have h : (e.regRead 0x002#12).toNat = e.statusWord.toNat := toNat_setWidth_WD p (Nat.le_max_left 32 p.W) _
  rw [BitVec.getLsbD, h, e.statusWord_toNat, Nat.testBit_zero]
  cases e.busy <;> simp <;> omega

end

section
variable {s : State} (hr : s.rstN = true)
include hr

theorem readData_status : s.readData 0x002#12 = s.eng.regRead 0x002#12 := by
  simp [State.readData, hr, Reg.volatile]

/-- One pass of WAIT reads STATUS, and loops after one more engine step while BUSY is 1. -/
theorem waitStep_of_rstN :
    s.waitStep = { s with
      inputs := if s.eng.busy then .engine :: .waitIdle :: s.inputs else s.inputs
      draws := s.draws + 1
      hRdata := some (s.eng.regRead 0x002#12) } := by
  rw [waitStep_eq]
  simp only [State.hostRead, BitVec.ofNat_eq_ofNat, readData_status hr, Engine.regRead_status_getLsbD_zero]

theorem step_waitIdle {rest : List (Event s.params)} (hq : s.inputs = .waitIdle :: rest) :
    step s = .next { s with
      inputs := if s.eng.busy then .engine :: .waitIdle :: rest else rest
      draws := s.draws + 1
      hRdata := some (s.eng.regRead 0x002#12) } :=
  (step_cons hq).trans (congrArg _ (waitStep_of_rstN (s := { s with inputs := rest }) hr))

end

end Sys2Proof.Machine

namespace Sys2Proof

open Sys2Proof.Machine Sys2Proof.Claims

/-! ### The obligations -/

/-- Settles O2: the decoder reads back the fields the encoder packed. -/
theorem decodeEncodeRoundTrip : Obligations.DecodeEncodeRoundTrip := fun _ h => decode_encode h

/-- Settles O3: a legal word is packed from its own fields. -/
theorem legalWordsEncodeBack : Obligations.LegalWordsEncodeBack := fun _ _ h => encode_of_decode h

/-- Settles O4: each row's mask asks for the fields its command does not use, and so does the command's word. -/
theorem opcodeMapDecides : Obligations.OpcodeMapDecides := by
  intro x
  simp only [decode_eq_ok_iff, fieldIs_iff (rdOf_toNat x), fieldIs_iff (rs1Of_toNat x), fieldIs_iff (rs2Of_toNat x),
    ← immOf_toNat]
  refine ⟨(and_mask_eq_iff 0 true true true true rfl rfl).trans ?_,
    (and_mask_eq_iff 1 true true true true rfl rfl).trans ?_,
    (and_mask_eq_iff 2 true true true true rfl rfl).trans ?_,
    (and_mask_eq_iff 3 true true true true rfl rfl).trans ?_,
    (and_mask_eq_iff 4 true true true true rfl rfl).trans ?_,
    (and_mask_eq_iff 5 false false false true rfl rfl).trans ?_,
    (and_mask_eq_iff 6 false false false true rfl rfl).trans ?_,
    (and_mask_eq_iff 7 false false true false rfl rfl).trans ?_,
    (and_mask_eq_iff 8 false false true false rfl rfl).trans ?_,
    (and_mask_eq_iff 9 false false true true rfl rfl).trans ?_⟩
  all_goals simp [encode, packWord_eq_iff, Instr.wellFormed, immOf_le]

/-- Settles O5: the illegal words' fields as digits of the word, and the one check of CMD that such a word meets. -/
theorem illegalWordsAreRejected : Obligations.IllegalWordsAreRejected := by
  refine ⟨fun w => ?_, fun p e lat v hb ⟨r, hd⟩ => ?_, rfl⟩
  · rw [exists_decode_eq_error_iff]
    simp only [Ne, ← BitVec.toNat_inj, reservedOf_toNat, opOf_toNat, rdOf_toNat, rs1Of_toNat, rs2Of_toNat,
      immOf_toNat, BitVec.ofNat_eq_ofNat, BitVec.toNat_ofNat]
    omega
  · dsimp only
    rw [e.regWrite_cmd_illegal hb hd]
    exact ⟨rfl, e.raiseError_eq _ _ _⟩

/-- Settles O1, by running the decoder on each word. -/
theorem specWordsDecode : Obligations.SpecWordsDecode := ⟨rfl, rfl, rfl, rfl, rfl, rfl, rfl, rfl, rfl, rfl⟩

/-- Settles O25: the second command reads the register the first one wrote, and 2^LGW = W for every width. -/
theorem fmixComputesTheMixingTerm : Obligations.FmixComputesTheMixingTerm := by
  intro rd rs s
  refine ⟨_, _, exec_eq _ _, exec_eq _ _, ?_, s.params.width.two_pow_lg, fun r hr => ?_, rfl⟩
  · simp [effectOf, mixTerm]
  · simp [effectOf, Block.get_set_other _ _ _ _ hr]

/-- Settles O60: one pass of WAIT for each value of BUSY, and LOADKEY's expansion, which is its definition. -/
theorem pseudoCommandsExpand : Obligations.PseudoCommandsExpand :=
  ⟨fun _ _ hr hq => ⟨fun hb => by simp [step_waitIdle hr hq, hb], fun hb => by simp [step_waitIdle hr hq, hb]⟩,
    fun _ _ => rfl⟩

end Sys2Proof

/-! The proofs of the statements of 40_command_protocol.md: the issue and acceptance of a command (R74, R75), engine
steps and completion (R76 to R78), progress (R79), gated writes (R80), volatile reads (R81), and NOP (R83). -/

namespace Sys2Proof.Machine

/-! ### Writes of CMD (R74, R75) -/

section
variable {p : Params} {e : Engine p}

/-- A legal command passes its own check exactly where ENC and DEC find a key and SCHED finds the counts equal. -/
theorem Engine.issueCheck_eq_noError {i : Instr} :
    e.issueCheck i = .noError ↔
      ((i = .enc ∨ i = .dec) → e.keyValid = true) ∧ (i = .sched → e.keyCount = e.keyLen) := by
  cases i <;> simp [Engine.issueCheck]

variable {v : BitVec p.WD} (lat : Nat)

theorem Engine.writeCheck_cmd_legal (hb : e.busy = false) {i : Instr} (hd : decode (v.setWidth 32) = .ok i) :
    e.writeCheck 0x005#12 v = e.issueCheck i := by
  simp [Engine.writeCheck, Engine.cmdCheck, hb, hd]

theorem Engine.regWrite_cmd_accepted (hb : e.busy = false) {i : Instr} (hd : decode (v.setWidth 32) = .ok i)
    (hc : e.issueCheck i = .noError) : e.regWrite lat 0x005#12 v = e.accept (v.setWidth 32) i lat := by
  rw [e.regWrite_accepted lat _ v ((e.writeCheck_cmd_legal hb hd).trans hc)]
  simp [Engine.writeEffect, Engine.writeCmd, hd]

theorem Engine.regWrite_cmd_rejected (hb : e.busy = false) {i : Instr} (hd : decode (v.setWidth 32) = .ok i)
    {c : ErrorCode} (hc : e.issueCheck i = c) (hne : c ≠ .noError) :
    e.regWrite lat 0x005#12 v = e.raiseError c 0x005#12 v := by
  have hw := (e.writeCheck_cmd_legal hb hd).trans hc
  rw [e.regWrite_rejected lat _ v (hw ▸ hne), hw]

/-! ### Gated writes, and writes with no effect (R80, R117) -/

variable {idx : BitVec 12}

/-- BUSY is the first check of every gated register, and a register that is not gated has no check. -/
theorem Engine.writeCheck_busy (hb : e.busy = true) :
    e.writeCheck idx v = if (Reg.ofIndex p idx).gated then .busy else .noError := by
  unfold Engine.writeCheck
  cases Reg.ofIndex p idx with
  | cmd | keylen | keydata | blk =>
    simp [Engine.cmdCheck, Engine.keylenCheck, Engine.keydataCheck, Engine.blkCheck, Reg.gated, hb]
  | id | ctrl | status | error | errdata | keycnt | skey | unmapped => rfl

theorem Engine.regWrite_gated_busy (hb : e.busy = true) (hg : (Reg.ofIndex p idx).gated = true) :
    e.regWrite lat idx v = e.raiseError .busy idx v := by
  have hc : e.writeCheck idx v = .busy := by rw [Engine.writeCheck_busy hb, if_pos hg]
  rw [e.regWrite_rejected lat idx v (by simp [hc]), hc]

theorem Engine.regWrite_at_skey {i : Fin p.T} (h : Reg.ofIndex p idx = .skey i) : e.regWrite lat idx v = e := by
  simp [Engine.regWrite, Engine.writeCheck, Engine.writeEffect, h]

theorem Engine.regWrite_at_unmapped (h : Reg.ofIndex p idx = .unmapped) : e.regWrite lat idx v = e := by
  simp [Engine.regWrite, Engine.writeCheck, Engine.writeEffect, h]

/-- While busy no register write reaches the command in progress. -/
theorem Engine.regWrite_phase_of_busy (hb : e.busy = true) : (e.regWrite lat idx v).phase = e.phase := by
  obtain ⟨hp, -, -, -, -⟩ | ⟨i, -, hidle, -⟩ | ⟨-, h⟩ | ⟨r, -, h⟩ := e.regWrite_commandState_cases lat idx v
  · exact hp
  · simp [hb] at hidle
  · rw [h, Engine.writeStatus]
  · rw [h, Engine.writeBlk, Engine.setBlk_phase]

end

/-- The volatile registers by index (R81). -/
theorem Reg.fixed_volatile (p : Params) (n : Nat) :
    (Reg.fixed p n).volatile = true ↔ n = 0x008 ∨ (0x010 ≤ n ∧ n ≤ 0x013) := by
  by_cases hu : (0x009 ≤ n ∧ n < 0x010) ∨ 0x014 ≤ n
  · rw [Reg.fixed_of_unmapped p hu]
    exact iff_of_false Bool.false_ne_true (by omega)
  · obtain h | ⟨h, h'⟩ : n ≤ 0x008 ∨ (0x010 ≤ n ∧ n ≤ 0x013) := by omega
    · interval_cases n <;> simp [Reg.fixed, Reg.volatile]
    · interval_cases n <;> simp [Reg.fixed, Reg.volatile]

theorem Reg.ofIndex_volatile (p : Params) (idx : BitVec 12) :
    (Reg.ofIndex p idx).volatile = true ↔
      idx.toNat = 0x008 ∨ (0x010 ≤ idx.toNat ∧ idx.toNat ≤ 0x013) ∨
        (0x100 ≤ idx.toNat ∧ idx.toNat < 0x100 + p.T) := by
  unfold Reg.ofIndex
  split
  case isTrue h => exact iff_of_true rfl (.inr (.inr h))
  case isFalse h =>
    rw [Reg.fixed_volatile]
    tauto

/-! ### Completion (R78) -/

section
variable (i : Instr) (s : State)

/-- No command's completion depends on what PHASE, PENDING and REMAIN were. -/
theorem exec_withPhase (ph : Phase) : exec i { s with eng := { s.eng with phase := ph } } = exec i s := by
  cases i <;> rfl

/-- Nor on its own acceptance: completion sets DONE, and SCHED's sets the KEY_VALID its acceptance cleared
(R75, R103). -/
theorem exec_accept (w : BitVec 32) (lat : Nat) :
    exec i { s with eng := s.eng.accept w i lat } = exec i s := by
  cases i <;> rfl

end

/-! ### Engine steps (R76, R77, R78) -/

section
variable {s : State}

theorem engineStep_idle (hp : s.eng.phase = .idle) : s.engineStep = .next s := by
  simp [State.engineStep, hp]

variable (hr : s.rstN = true) {w : BitVec 32} {n : Nat}
include hr

theorem engineStep_count (hp : s.eng.phase = .run w (n + 2)) :
    s.engineStep = .next { s with eng := { s.eng with phase := .run w (n + 1) } } := by
  simp [State.engineStep, hr, hp]

theorem engineStep_complete (hp : s.eng.phase = .run w n) (hn : n ≤ 1) {i : Instr} (hd : decode w = .ok i) :
    s.engineStep = exec i s := by
  have h0 : n - 1 = 0 := by omega
  simp [State.engineStep, State.completePending, hr, hp, h0, hd]

end

/-- Listed or not, the engine step takes its own event out of the list. -/
theorem step_of_engineIsNext {s : State} (h : Claims.engineIsNext s) :
    step s = State.engineStep { s with inputs := s.inputs.tail } := by
  cases hq : s.inputs with
  | nil =>
    rw [step_nil hq]
    obtain ⟨p, e, r, d, q, n⟩ := s
    dsimp only at hq
    subst hq
    rfl
  | cons ev rest =>
    obtain rfl : ev = .engine := by simpa [Claims.engineIsNext, hq] using h
    exact step_cons hq

theorem step_idle {s : State} (hn : Claims.engineIsNext s) (hp : s.eng.phase = .idle) :
    step s = .next { s with inputs := s.inputs.tail } :=
  (step_of_engineIsNext hn).trans (engineStep_idle hp)

theorem step_count {s : State} (hr : s.rstN = true) (hn : Claims.engineIsNext s) {w : BitVec 32} {n : Nat}
    (hp : s.eng.phase = .run w (n + 2)) :
    step s = .next { s with inputs := s.inputs.tail, eng := { s.eng with phase := .run w (n + 1) } } :=
  (step_of_engineIsNext hn).trans (engineStep_count (s := { s with inputs := s.inputs.tail }) hr hp)

theorem step_of_completes {s : State} {i : Instr} (h : Claims.completes s i) :
    step s = exec i { s with inputs := s.inputs.tail } := by
  obtain ⟨hr, hn, w, n, hp, hle, hd⟩ := h
  rw [step_of_engineIsNext hn]
  exact engineStep_complete (s := { s with inputs := s.inputs.tail }) hr hp hle hd

/-- A command runs to its end with no event listed, whatever its latency (R77). -/
theorem run_to_completion {s : State} (hr : s.rstN = true) (hq : s.inputs = []) {w : BitVec 32} {n : Nat}
    (hp : s.eng.phase = .run w (n + 1)) {i : Instr} (hd : decode w = .ok i) :
    Host.Core.run Sys2Proof.core (n + 1) s = exec i s := by
  induction n generalizing s with
  | zero =>
    have hstep : step s = exec i s := by rw [step_nil hq, engineStep_complete hr hp (Nat.le_refl 1) hd]
    rw [exec_eq] at hstep ⊢
    exact run_succ_of_next 0 hstep
  | succ n ih =>
    have hstep := (step_nil hq).trans (engineStep_count hr hp)
    rw [run_succ_of_next (n + 1) hstep, ih (s := { s with eng := { s.eng with phase := .run w (n + 1) } }) hr hq rfl,
      exec_withPhase]

/-- The step that takes a CMD write which passes every check (R74, R75). -/
theorem step_cmd_accepted {s : State} {rest : List (Event s.params)} {v : BitVec s.params.WD} {i : Instr}
    (hr : s.rstN = true) (hb : s.eng.busy = false) (hq : s.inputs = .host (.write 0x005#12 v) :: rest)
    (hd : decode (v.setWidth 32) = .ok i) (hc : s.eng.issueCheck i = .noError) :
    step s = .next { s with
      eng := s.eng.accept (v.setWidth 32) i (latency s.draws)
      inputs := rest
      hRdata := none
      draws := s.draws + 1 } := by
  rw [step_host hq, ← Engine.regWrite_cmd_accepted _ hb hd hc]
  exact congrArg _ (State.hostWrite_of_rstN (s := { s with inputs := rest }) hr _ v)

/-! ### Steps that meet a listed event (R79) -/

theorem hostStep_eq (s : State) (a : Access s.params) :
    ∃ e d n, s.hostStep a = { s with eng := e, hRdata := d, draws := n } ∧
      (s.eng.busy = true → e.phase = s.eng.phase) := by
  cases a with
  | read idx => exact ⟨_, _, _, rfl, fun _ => rfl⟩
  | write idx v =>
    refine ⟨_, _, _, rfl, fun hb => ?_⟩
    split
    · exact Engine.regWrite_phase_of_busy _ hb
    · rfl

end Sys2Proof.Machine

namespace Sys2Proof

open Sys2Proof.Machine Sys2Proof.Claims

/-! ### Progress (R79) -/

/-- What R79 is stated of: the invariant, and a list of events with no WAIT loop and no access outside the binding. -/
structure Runs (s : State) : Prop where
  inv : Inv s
  bound : busBound s
  no_wait : Event.waitIdle ∉ s.inputs

section
variable {s : State} (h : Runs s)
include h

/-- A step that takes only the next event off the list leads to such a state again. -/
theorem Runs.tail {e : Engine s.params} {r : Bool} {d : Option (BitVec s.params.WD)} {n : Nat}
    (hstep : step s = .next ⟨s.params, e, r, d, s.inputs.tail, n⟩) : Runs ⟨s.params, e, r, d, s.inputs.tail, n⟩ where
  inv := stepKeepsInvariant _ _ h.inv hstep
  bound b hb := h.bound b (List.mem_of_mem_tail hb)
  no_wait hm := h.no_wait (List.mem_of_mem_tail hm)

theorem Runs.rstN_of_run {w : BitVec 32} {n : Nat} (hp : s.eng.phase = .run w n) : s.rstN = true := by
  cases hr : s.rstN with
  | true => rfl
  | false =>
    rw [h.inv.in_reset hr] at hp
    cases hp

/-- A listed event other than an engine step is taken, and only reset reaches a command in progress. -/
theorem Runs.step_of_listed {ev : Event s.params} {rest : List (Event s.params)} (hq : s.inputs = ev :: rest)
    (hev : ev ≠ .engine) :
    ∃ e r d n, step s = .next ⟨s.params, e, r, d, rest, n⟩ ∧
      (ev ≠ .assertReset → s.eng.busy = true → e.phase = s.eng.phase) := by
  have hmem : ev ∈ s.inputs := hq ▸ List.mem_cons_self
  rw [step_cons hq]
  cases ev with
  | engine => exact absurd rfl hev
  | host a =>
    obtain ⟨e, d, n, ha, hp⟩ := hostStep_eq { s with inputs := rest } a
    exact ⟨e, _, d, n, congrArg _ ha, fun _ => hp⟩
  | bus b =>
    obtain ⟨a, hb⟩ := Option.ne_none_iff_exists'.1 (h.bound b hmem)
    obtain ⟨e, d, n, ha, hp⟩ := hostStep_eq { s with inputs := rest } a
    exact ⟨e, _, d, n, (handle_bus_bound (s := { s with inputs := rest }) hb).trans (congrArg _ ha), fun _ => hp⟩
  | assertReset => exact ⟨_, _, _, _, rfl, fun hne => absurd rfl hne⟩
  | releaseReset => exact ⟨_, _, _, _, rfl, fun _ _ => rfl⟩
  | waitIdle => exact absurd hmem h.no_wait

/-- An engine step of a state of the invariant goes on: what stands in PENDING is a command. -/
theorem Runs.step_of_engineIsNext (hn : engineIsNext s) :
    ∃ e, step s = .next { s with eng := e, inputs := s.inputs.tail } := by
  rw [Machine.step_of_engineIsNext hn]
  obtain ⟨-, hs⟩ | ⟨w, n, hr, hp, hle, -⟩ | ⟨w, n, -, -, hs⟩ :=
    engineStep_cases { s with inputs := s.inputs.tail }
  · exact ⟨_, hs⟩
  · obtain ⟨-, -, i, hd, -⟩ := h.inv.engine.running w n hp
    exact ⟨_, (engineStep_complete hr hp hle hd).trans (exec_eq i _)⟩
  · exact ⟨_, hs⟩

theorem Runs.exists_step : ∃ e r d n, step s = .next ⟨s.params, e, r, d, s.inputs.tail, n⟩ := by
  by_cases hn : engineIsNext s
  · obtain ⟨e, he⟩ := h.step_of_engineIsNext hn
    exact ⟨e, _, _, _, he⟩
  · cases hq : s.inputs with
    | nil => exact absurd (.inl hq) hn
    | cons ev rest =>
      obtain ⟨e, r, d, n, he, -⟩ := h.step_of_listed hq fun hev => hn (.inr (by rw [hq, hev]; rfl))
      exact ⟨e, r, d, n, he⟩

/-- A step with a command in progress that neither completes it nor resets it leaves it in progress, with fewer events
and engine steps to come. -/
theorem Runs.step_in_progress (hx : Event.assertReset ∉ s.inputs) {w : BitVec 32} {n : Nat}
    (hp : s.eng.phase = .run w n) {i : Instr} (hd : decode w = .ok i) (hc : ¬ completes s i) :
    ∃ e r d k m, step s = .next ⟨s.params, e, r, d, s.inputs.tail, k⟩ ∧ e.phase = .run w m ∧
      m + s.inputs.tail.length < n + s.inputs.length := by
  have hr := h.rstN_of_run hp
  by_cases hn : engineIsNext s
  · have hn2 : ¬ n ≤ 1 := fun hle => hc ⟨hr, hn, w, n, hp, hle, hd⟩
    obtain ⟨n, rfl⟩ : ∃ m, n = m + 2 := ⟨n - 2, by omega⟩
    refine ⟨_, _, _, _, n + 1, step_count hr hn hp, rfl, ?_⟩
    rw [List.length_tail]
    omega
  · cases hq : s.inputs with
    | nil => exact absurd (.inl hq) hn
    | cons ev rest =>
      obtain ⟨e, r, d, k, hs, hph⟩ := h.step_of_listed hq fun hev => hn (.inr (by rw [hq, hev]; rfl))
      have hev : ev ≠ .assertReset := fun hev => hx (by rw [hq, hev]; exact List.mem_cons_self)
      refine ⟨e, r, d, k, n, hs, (hph hev (s.eng.busy_eq_true.2 ⟨w, n, hp⟩)).trans hp, ?_⟩
      simp

end

/-- With nothing listed the machine comes to rest: at once, or as the command in progress completes. -/
theorem Runs.run_unlisted {s : State} (h : Runs s) (hq : s.inputs = []) :
    ∃ k t, Host.Core.run core k s = .next t ∧ t.inputs = [] ∧ t.eng.busy = false := by
  cases hp : s.eng.phase with
  | idle => exact ⟨0, s, run_zero s, hq, s.eng.busy_eq_false.2 hp⟩
  | run w n =>
    obtain ⟨-, hn, i, hd, -⟩ := h.inv.engine.running w n hp
    obtain ⟨n, rfl⟩ := Nat.exists_eq_add_of_le' hn
    exact ⟨n + 1, _, (run_to_completion (h.rstN_of_run hp) hq hp hd).trans (exec_eq i s), hq, rfl⟩

/-- Each step takes an event out of the list, so the list comes to an end. -/
theorem Runs.run_to_rest {s : State} (h : Runs s) :
    ∃ k t, Host.Core.run core k s = .next t ∧ t.inputs = [] ∧ t.eng.busy = false := by
  induction hl : s.inputs.length generalizing s with
  | zero => exact h.run_unlisted (List.length_eq_zero_iff.1 hl)
  | succ l ih =>
    obtain ⟨e, r, d, n, hs⟩ := h.exists_step
    obtain ⟨k, t, hrun, ht⟩ := ih (h.tail hs) (by rw [List.length_tail, hl]; rfl)
    exact ⟨k + 1, t, (run_succ_of_next k hs).trans hrun, ht⟩

/-- A command in progress stays so until the step that completes it comes, by the count of events and engine steps to
come (R79). -/
theorem Runs.run_in_progress {s : State} (h : Runs s) (hx : Event.assertReset ∉ s.inputs) {w : BitVec 32} {n : Nat}
    (hp : s.eng.phase = .run w n) {i : Instr} (hd : decode w = .ok i) :
    ∃ k t, Host.Core.run core k s = .next t ∧ completes t i ∧
      ∀ j, j ≤ k → ∃ u, Host.Core.run core j s = .next u ∧ u.eng.busy = true := by
  have hb : s.eng.busy = true := s.eng.busy_eq_true.2 ⟨w, n, hp⟩
  induction hm : n + s.inputs.length using Nat.strong_induction_on generalizing s n with
  | _ m ih =>
    by_cases hc : completes s i
    · refine ⟨0, s, run_zero s, hc, fun j hj => ⟨s, ?_, hb⟩⟩
      rw [Nat.le_zero.1 hj, run_zero]
    · obtain ⟨e, r, d, k, n', hs, hp', hlt⟩ := h.step_in_progress hx hp hd hc
      obtain ⟨k, t, hrun, ht, hbusy⟩ := ih _ (hm ▸ hlt) (h.tail hs) (fun hmem => hx (List.mem_of_mem_tail hmem)) hp'
        (e.busy_eq_true.2 ⟨w, n', hp'⟩) rfl
      refine ⟨k + 1, t, (run_succ_of_next k hs).trans hrun, ht, fun j hj => ?_⟩
      cases j with
      | zero => exact ⟨s, run_zero s, hb⟩
      | succ j =>
        rw [run_succ_of_next j hs]
        exact hbusy j (Nat.le_of_succ_le_succ hj)

/-! ### What the statements of the commands share (R68, R69, R74, R75) -/

/-- A command with no check of its own is issued by the shared protocol alone. -/
theorem issuesUnchecked_of_issueCheck {i : Instr} (hw : i.wellFormed = true) (hs : i ≠ .sched)
    (hc : ∀ (p : Params) (e : Engine p), e.issueCheck i = .noError) : issuesUnchecked i := by
  intro p e lat v hv
  refine ⟨fun hb => Engine.regWrite_gated_busy lat hb rfl, fun hb => ?_⟩
  rw [Engine.regWrite_cmd_accepted lat hb (hv ▸ decode_encode hw) (hc p e), Engine.accept_eq, hv]
  simp [hs]

/-- The words of an opcode with an unused bit set are illegal when no command of that opcode has such a bit in its
word. -/
theorem illegalWith_of_encode {op : BitVec 4} {c unused : BitVec 32} (hop : c = packWord op 0 0 0 0)
    (h : ∀ i : Instr, i.wellFormed = true → opOf (encode i) = op → encode i &&& unused = 0#32) :
    illegalWith c unused := by
  intro w hw hne
  cases hd : decode w with
  | error r => exact ⟨⟨r, rfl⟩, fun p e lat v hv hb => e.regWrite_cmd_illegal hb (hv ▸ hd) lat⟩
  | ok i =>
    obtain ⟨hi, rfl⟩ := encode_of_decode hd
    have hop' : opOf (encode i) &&& opOf 0xF#32 = opOf c := (and_eq_iff_fields.1 hw).2.1
    rw [show opOf 0xF#32 = BitVec.allOnes 4 by decide, BitVec.and_allOnes, hop, fields_packWord.2.1] at hop'
    exact absurd (h i hi hop') hne

/-! ### The obligations -/

/-- Settles O26: the checks of a CMD write, one lemma each, and the latency a host write draws. -/
theorem cmdWriteChecksInOrder : Obligations.CmdWriteChecksInOrder := by
  intro p e lat v
  refine ⟨fun hb => Engine.regWrite_gated_busy lat hb rfl, fun hb ⟨r, hd⟩ => e.regWrite_cmd_illegal hb hd lat,
    fun i hb hd => ⟨fun hi hk => ?_, fun hi hk => ?_, fun hkey hlen => ?_⟩, fun s idx x hr => ?_⟩
  · refine Engine.regWrite_cmd_rejected lat hb hd ?_ (by decide)
    obtain rfl | rfl := hi <;> simp [Engine.issueCheck, hk]
  · refine Engine.regWrite_cmd_rejected lat hb hd ?_ (by decide)
    simp [Engine.issueCheck, hi, hk]
  · rw [Engine.regWrite_cmd_accepted lat hb hd (Engine.issueCheck_eq_noError.2 ⟨hkey, hlen⟩), Engine.accept_eq]
    refine ⟨?_, rfl⟩
    by_cases hi : i = .sched <;> simp [hi]
  · exact ⟨latency s.draws, latency_pos _, if_pos hr⟩

/-- Settles O31: the engine steps only count, and no command's effect looks at the count. -/
theorem latencyChangesNoResult : Obligations.LatencyChangesNoResult := fun s _ _ i hr hq hp hd =>
  (run_to_completion hr hq hp hd).trans (exec_withPhase i s _).symm

/-- Settles O32: the write is accepted, its command runs to its end, and the acceptance leaves no trace in the
effect. -/
theorem issuedCommandTakesEffect : Obligations.IssuedCommandTakesEffect := by
  intro s i v hr hb hq hd hc
  have hp : (s.eng.accept (v.setWidth 32) i (latency s.draws)).phase =
      .run (v.setWidth 32) (Config.freeLatency s.draws + 1) := by rw [Engine.accept_eq, latency]
  have hrun : Host.Core.run core (Config.freeLatency s.draws + 1 + 1) s =
      exec i { s with inputs := [], hRdata := none, draws := s.draws + 1 } := by
    rw [run_succ_of_next _ (step_cmd_accepted hr hb hq hd hc)]
    refine (run_to_completion ?_ ?_ ?_ hd).trans
      (exec_accept i { s with inputs := [], hRdata := none, draws := s.draws + 1 } _ _)
    exacts [hr, rfl, hp]
  exact ⟨_, (effectOf i s.eng).finish, hrun.trans (exec_eq i _), exec_eq i _, rfl, rfl⟩

/-- Settles O33: each listed event is taken, and a command in progress counts down to its completion. -/
theorem everyAcceptedCommandCompletes : Obligations.EveryAcceptedCommandCompletes :=
  ⟨fun _ hi hb hw => Runs.run_to_rest ⟨hi, hb, hw⟩,
    fun _ _ _ _ hi hb hw hx hp hd => Runs.run_in_progress ⟨hi, hb, hw⟩ hx hp hd⟩

/-- Settles O34: the gated registers' first check is BUSY, and the rest of the map ignores writes. -/
theorem gatedWritesWhileBusy : Obligations.GatedWritesWhileBusy := by
  intro p e lat idx v
  refine ⟨fun hb hidx => ?_, rfl, fun hidx => ?_, fun hidx => ?_⟩
  · have hg : (Reg.ofIndex p idx).gated = true := by
      simp only [List.mem_cons, List.not_mem_nil, or_false] at hidx
      rcases hidx with rfl | rfl | rfl | rfl | rfl | rfl | rfl <;> rfl
    exact ⟨Engine.regWrite_gated_busy lat hb hg, Engine.regWrite_phase_of_busy lat hb⟩
  · simp only [List.mem_cons, List.not_mem_nil, or_false] at hidx
    rcases hidx with rfl | rfl | rfl <;> rfl
  · obtain hm | ⟨i, hi, rfl⟩ | hu := Reg.ofIndex_split p idx
    · have hro : idx = 0x000#12 ∨ idx = 0x004#12 ∨ idx = 0x008#12 := by
        simp only [List.mem_cons, List.not_mem_nil, or_false] at hm hidx
        tauto
      rcases hro with rfl | rfl | rfl <;> rfl
    · exact Engine.regWrite_at_skey lat (Reg.ofIndex_skey p hi)
    · exact Engine.regWrite_at_unmapped lat (Reg.ofIndex_unmapped p hu)

/-- Settles O18: only NOP's word has OP = 0, and it is all zero. -/
theorem nopOnlyRunsTheProtocol : Obligations.NopOnlyRunsTheProtocol := by
  refine ⟨rfl, issuesUnchecked_of_issueCheck rfl (by decide) fun _ _ => rfl,
    illegalWith_of_encode (op := 0) rfl fun i _ hop => ?_,
    fun s => ⟨exec_eq .nop s, fun hdie => by simp [Engine.irq, hdie]⟩⟩
  cases i with
  | nop => rfl
  | _ => simp [encode, fields_packWord] at hop

/-- Settles O28: an engine step, listed or not, by the phase it meets. -/
theorem engineStepsIdleAndCount : Obligations.EngineStepsIdleAndCount := fun _ hr hn =>
  ⟨step_idle hn, fun _ _ => step_count hr hn⟩

/-- Settles O29: the completing step is exec, which ends the busy period. -/
theorem stepRunsThePendingCommand : Obligations.StepRunsThePendingCommand := fun s i h =>
  ⟨step_of_completes h, (effectOf i s.eng).finish, (step_of_completes h).trans (exec_eq i _), rfl, rfl, rfl⟩

/-- Settles O30: the placed word stands in PENDING with one engine step left, and that step is next. -/
theorem placedWordRunsNext : Obligations.PlacedWordRunsNext := by
  intro s w i hw hd
  have hdec : decode (BitVec.ofNat 32 (w % 2 ^ 32)) = .ok i := by
    unfold decodeTableWord at hd
    split at hd
    · cases hd
      assumption
    · cases hd
  have h : completes (s.withFetchWord 32 w) i := ⟨rfl, .inr rfl, _, 1, rfl, Nat.le_refl 1, hdec⟩
  rw [step_of_completes h]
  simp only [State.withFetchWord, State.withPending, Nat.mod_eq_of_lt hw, List.tail_cons]

/-- Settles O43: the three cases of a read, and the volatile registers by index. -/
theorem volatileReadsAreFree : Obligations.VolatileReadsAreFree := by
  intro s rest idx hq
  rw [step_host hq]
  refine ⟨fun hr hb hv => ?_, fun hr hx => ?_, fun hr => ?_, Reg.ofIndex_volatile s.params idx⟩
  · simp [State.hostStep, State.hostRead, State.readData, hr, hb, hv]
  · obtain h | h := hx <;> simp [State.hostStep, State.hostRead, State.readData, hr, h]
  · simp [State.hostStep, State.hostRead, State.readData, hr]

end Sys2Proof

/-! The proofs of the statements of 41_rotate_mix.md: the rotations (R85 to R87), the multiply-mix (R88), and the
commands ROTL, ROTR, ROTLI, ROTRI and MULMIX (R89 to R93). -/

namespace Sys2Proof.Machine

/-! ### The rotations (R85, R86, R87) -/

section
variable {w : Nat} (x : Word w) (m n : Nat)

theorem rotl_of_mod_eq_zero {n : Nat} (h : n % w = 0) : rotl x n = x := if_pos h

theorem rotr_of_mod_eq_zero {n : Nat} (h : n % w = 0) : rotr x n = x := if_pos h

theorem rotl_mod : rotl x (n % w) = rotl x n := by rw [rotl, Nat.mod_mod, rotl]

theorem rotr_mod : rotr x (n % w) = rotr x n := by rw [rotr, Nat.mod_mod, rotr]

/-- Two shifted copies of a word, joined in W bits and as numbers. -/
theorem toNat_shiftLeft_or_shiftRight (a b : Nat) :
    (x <<< a ||| x >>> b).toNat = (x.toNat <<< a ||| x.toNat >>> b) % 2 ^ w := by
  rw [BitVec.toNat_or, BitVec.toNat_shiftLeft, Nat.or_mod_two_pow, ← BitVec.toNat_ushiftRight,
    Nat.mod_eq_of_lt (x >>> b).isLt]

theorem toNat_rotl : (rotl x n).toNat = Claims.rotlN w x.toNat n := by
  rw [rotl, Claims.rotlN]
  split
  · rfl
  · exact toNat_shiftLeft_or_shiftRight x _ _

theorem toNat_rotr : (rotr x n).toNat = Claims.rotrN w x.toNat n := by
  rw [rotr, Claims.rotrN]
  split
  · rfl
  · rw [BitVec.or_comm, Nat.or_comm]
    exact toNat_shiftLeft_or_shiftRight x _ _

/-- Left by `n` is right by the rest of the width. -/
theorem rotl_eq_rotr : rotl x n = rotr x (w - n % w) := by
  obtain rfl | hw := Nat.eq_zero_or_pos w
  · exact Subsingleton.elim _ _
  have hn : n % w < w := Nat.mod_lt n hw
  by_cases h : n % w = 0
  · rw [rotl_of_mod_eq_zero x h, rotr_of_mod_eq_zero x (by rw [h, Nat.sub_zero, Nat.mod_self])]
  · have hs : (w - n % w) % w = w - n % w := Nat.mod_eq_of_lt (by omega)
    rw [rotl, rotr, hs, if_neg h, if_neg (by omega), Nat.sub_sub_self hn.le, BitVec.or_comm]

/-- Bit `i` of the word rotated right is bit `i + n`, around the width. -/
theorem getLsbD_rotr {i : Nat} (hi : i < w) : (rotr x n).getLsbD i = x.getLsbD ((i + n) % w) := by
  have hn : n % w < w := Nat.mod_lt n (by omega)
  rw [Nat.add_mod, Nat.mod_eq_of_lt hi]
  by_cases h : n % w = 0
  · rw [rotr_of_mod_eq_zero x h, h, Nat.add_zero, Nat.mod_eq_of_lt hi]
  rw [rotr, if_neg h, BitVec.getLsbD_or, BitVec.getLsbD_ushiftRight, BitVec.getLsbD_shiftLeft]
  obtain hlt | hge := Nat.lt_or_ge (i + n % w) w
  · rw [Nat.mod_eq_of_lt hlt, Nat.add_comm i]
    simp [show i < w - n % w by omega]
  · have hsub : (i + n % w) % w = i - (w - n % w) := by
      rw [Nat.mod_eq_sub_mod hge, Nat.mod_eq_of_lt (by omega)]
      omega
    rw [hsub, x.getLsbD_of_ge (n % w + i) (by omega)]
    simp [hi, show w - n % w ≤ i by omega]

/-- Amounts add up. -/
theorem rotr_rotr : rotr (rotr x m) n = rotr x (n + m) := by
  refine BitVec.eq_of_getLsbD_eq fun i hi => ?_
  rw [getLsbD_rotr _ n hi, getLsbD_rotr x m (Nat.mod_lt _ (by omega)), getLsbD_rotr x (n + m) hi, Nat.mod_add_mod,
    Nat.add_assoc]

/-- An amount and the rest of the width make up whole turns. -/
theorem rotr_add_rest : rotr x (n + (w - n % w)) = x := by
  obtain rfl | hw := Nat.eq_zero_or_pos w
  · exact Subsingleton.elim _ _
  · refine rotr_of_mod_eq_zero x ?_
    rw [← Nat.mod_add_mod, Nat.add_sub_cancel' (Nat.mod_lt n hw).le, Nat.mod_self]

theorem rotr_rotl : rotr (rotl x n) n = x := by rw [rotl_eq_rotr, rotr_rotr, rotr_add_rest]

theorem rotl_rotr : rotl (rotr x n) n = x := by rw [rotl_eq_rotr, rotr_rotr, Nat.add_comm, rotr_add_rest]

/-! ### The multiply-mix (R88) -/

theorem toNat_mulmix : (mulmix x).toNat = x.toNat * (2 * x.toNat + 1) % 2 ^ w := by
  simp [mulmix, BitVec.toNat_mul, BitVec.toNat_add, Nat.mul_mod, Nat.add_mod]

end

/-! ### The commands that write one block register (R89 to R93) -/

/-- A command whose effect is to write `x` to `rd` writes that and changes no other register. -/
theorem exec_of_setBlk {i : Instr} {s : State} {rd : BlkReg} {x : Word s.params.W}
    (h : effectOf i s.eng = s.eng.setBlk rd x) :
    ∃ e' : Engine s.params,
      exec i s = .next { s with eng := e' } ∧ e'.blk.get rd = x ∧
      (∀ r, r ≠ rd → e'.blk.get r = s.eng.blk.get r) ∧ Claims.onlyBlock s.eng e' := by
  refine ⟨(s.eng.setBlk rd x).finish, h ▸ exec_eq i s, ?_, fun r hr => ?_, rfl⟩
  · rw [Engine.finish_blk, Engine.setBlk_blk, Block.get_set_same]
  · rw [Engine.finish_blk, Engine.setBlk_blk, Block.get_set_other _ _ _ _ hr]

end Sys2Proof.Machine

namespace Sys2Proof

open Sys2Proof.Machine Sys2Proof.Claims

/-! ### Unused bits, by the rows of the opcode map (R67, R68) -/

/-- The rows stand in the order of their opcodes. -/
theorem opcodeTable_getElem?_opOf_encode (i : Instr) : opcodeTable[(opOf (encode i)).toNat]? = some i.row := by
  cases i <;> simp [encode, fields_packWord, opcodeTable, Instr.row]

theorem encode_and_mask (i : Instr) : encode i &&& i.row.mask = i.row.pattern := by
  refine beq_iff_eq.1 (?_ : Laws.EncodesInOwnRow.Statement i)
  cases i with
  | nop => exact Laws.EncodesInOwnRow.nop
  | keyclr => exact Laws.EncodesInOwnRow.keyclr
  | sched => exact Laws.EncodesInOwnRow.sched
  | enc => exact Laws.EncodesInOwnRow.enc
  | dec => exact Laws.EncodesInOwnRow.dec
  | rotl rd rs1 rs2 => exact Laws.EncodesInOwnRow.rotl rd rs1 rs2
  | rotr rd rs1 rs2 => exact Laws.EncodesInOwnRow.rotr rd rs1 rs2
  | rotli rd rs1 imm => exact Laws.EncodesInOwnRow.rotli rd rs1 imm
  | rotri rd rs1 imm => exact Laws.EncodesInOwnRow.rotri rd rs1 imm
  | mulmix rd rs1 => exact Laws.EncodesInOwnRow.mulmix rd rs1

theorem pattern_eq_packWord (i : Instr) : i.row.pattern = packWord (opOf (encode i)) 0 0 0 0 := by
  cases i <;> simp only [encode, fields_packWord] <;> rfl

/-- The bits a command does not use are those of its row's mask above OP. -/
theorem illegalWith_row (i : Instr) : illegalWith i.row.pattern (i.row.mask &&& 0xFFFFFFF0#32) := by
  refine illegalWith_of_encode (pattern_eq_packWord i) fun j _ hop => ?_
  have hrow : j.row = i.row := by
    rw [← Option.some_inj, ← opcodeTable_getElem?_opOf_encode, ← opcodeTable_getElem?_opOf_encode, hop]
  rw [← BitVec.and_assoc, ← hrow, encode_and_mask j]
  cases j <;> simp [Instr.row]

/-! ### The obligations -/

/-- Settles O6: the two shifted copies of the word, as numbers. -/
theorem rotateLeftFormula : Obligations.RotateLeftFormula := fun _ x n => toNat_rotl x n

/-- Settles O7: as O6, the copies exchanged. -/
theorem rotateRightFormula : Obligations.RotateRightFormula := fun _ x n => toNat_rotr x n

/-- Settles O8: every rotation is one to the right, and amounts to the right add up. -/
theorem rotationLaws : Obligations.RotationLaws := fun _ x n =>
  ⟨rotr_rotl x n, rotl_rotr x n, (rotl_mod x n).symm, (rotl_eq_rotr x n).trans (rotr_mod x _).symm⟩

/-- Settles O9: reduction commutes with `+` and `*`. -/
theorem multiplyMixFormula : Obligations.MultiplyMixFormula := fun _ x =>
  ⟨toNat_mulmix x, by rw [toNat_mulmix, Nat.mod_add_mod, Nat.mul_mod_mod]⟩

/-- Settles O22: the value comes from the sources as they were, whichever registers coincide. -/
theorem rotateByRegister : Obligations.RotateByRegister := by
  refine ⟨illegalWith_row (.rotl .A .A .A), illegalWith_row (.rotr .A .A .A), fun rd rs1 rs2 => ⟨?_, ?_,
    issuesUnchecked_of_issueCheck rfl nofun fun _ _ => rfl, issuesUnchecked_of_issueCheck rfl nofun fun _ _ => rfl,
    fun s => ?_, fun s => ?_⟩⟩
  · simp [encode, packWord_toNat, BlkReg.toBits_toNat]
  · simp [encode, packWord_toNat, BlkReg.toBits_toNat]
  · obtain ⟨e', hexec, hrd, hother, honly⟩ := exec_of_setBlk (i := .rotl rd rs1 rs2) (s := s) rfl
    exact ⟨e', hexec, hrd, fun h => hrd.trans (rotl_of_mod_eq_zero _ h), hother, honly⟩
  · obtain ⟨e', hexec, hrd, hother, honly⟩ := exec_of_setBlk (i := .rotr rd rs1 rs2) (s := s) rfl
    exact ⟨e', hexec, hrd, fun h => hrd.trans (rotr_of_mod_eq_zero _ h), hother, honly⟩

/-- Settles O23: an immediate in 0..63 is kept whole in the word, and the rotation reduces it. -/
theorem rotateByImmediate : Obligations.RotateByImmediate := by
  refine ⟨illegalWith_row (.rotli .A .A 0), illegalWith_row (.rotri .A .A 0), fun rd rs1 imm himm => ⟨?_, ?_,
    issuesUnchecked_of_issueCheck (decide_eq_true himm) nofun fun _ _ => rfl,
    issuesUnchecked_of_issueCheck (decide_eq_true himm) nofun fun _ _ => rfl, fun s => ?_, fun s => ?_⟩⟩
  · simp [encode, packWord_toNat, BlkReg.toBits_toNat, Nat.mod_eq_of_lt (Nat.lt_succ_of_le himm)]
  · simp [encode, packWord_toNat, BlkReg.toBits_toNat, Nat.mod_eq_of_lt (Nat.lt_succ_of_le himm)]
  · obtain ⟨e', hexec, hrd, hother, honly⟩ := exec_of_setBlk (i := .rotli rd rs1 imm) (s := s) rfl
    exact ⟨e', hexec, hrd, hrd.trans (rotl_mod _ _).symm, hother, honly⟩
  · obtain ⟨e', hexec, hrd, hother, honly⟩ := exec_of_setBlk (i := .rotri rd rs1 imm) (s := s) rfl
    exact ⟨e', hexec, hrd, hrd.trans (rotr_mod _ _).symm, hother, honly⟩

/-- Settles O24: the value written is the mix of O9. -/
theorem mulmixWritesTheMix : Obligations.MulmixWritesTheMix := by
  refine ⟨illegalWith_row (.mulmix .A .A), fun rd rs1 => ⟨?_,
    issuesUnchecked_of_issueCheck rfl nofun fun _ _ => rfl, fun s => ?_⟩⟩
  · simp [encode, packWord_toNat, BlkReg.toBits_toNat]
  · obtain ⟨e', hexec, hrd, hother, honly⟩ := exec_of_setBlk (i := .mulmix rd rs1) (s := s) rfl
    exact ⟨e', hexec, hrd ▸ toNat_mulmix _, hother, honly⟩

end Sys2Proof

/-! The proofs of the statements of 42_key_schedule.md: the key words (R98, R99), the table before mixing (R100), the
mixing loop against the rules' own (R101, R102, R104), the key registers (R95, R96), KEYCLR (R97) and SCHED (R103). -/

namespace Sys2Proof.Machine

/-! ### The key-word count (R98) -/

/-- The count is the least that is at least 1 and whose chunks hold all `b` bytes. -/
theorem keyWords_le_iff {u b c : Nat} (hu : 0 < u) : keyWords u b ≤ c ↔ 1 ≤ c ∧ b ≤ c * u := by
  rw [keyWords, max_le_iff, ← Nat.ceilDiv_eq_add_pred_div, ceilDiv_le_iff_le_mul hu, Nat.mul_comm]

theorem keyWords_pos (u b : Nat) : 0 < keyWords u b := Nat.le_max_left 1 _

theorem le_keyWords_mul {u : Nat} (hu : 0 < u) (b : Nat) : b ≤ keyWords u b * u :=
  ((keyWords_le_iff hu).1 (Nat.le_refl _)).2

theorem U_pos (p : Params) : 0 < p.U := by
  have hbits : 0 < p.width.bits := p.width.two_pow_lg ▸ Nat.two_pow_pos _
  exact Nat.pos_of_mul_pos_right (p.width.bits_div_eight_mul.symm ▸ hbits)

theorem keyWords_le_C_MAX (p : Params) {b : Nat} (h : b ≤ p.B_MAX) : keyWords p.U b ≤ p.C_MAX :=
  (keyWords_le_iff (U_pos p)).2 ⟨keyWords_pos _ _, h.trans (le_keyWords_mul (U_pos p) _)⟩

/-! ### The key words as loaded (R99) -/

section
variable {m : Nat} (k : Vector Byte m) (b : Nat)

theorem keyByte_toNat (n : Nat) : (keyByte k b n).toNat = if n < b then (fileRead k n).toNat else 0 := by
  rw [keyByte, apply_ite BitVec.toNat]
  rfl

theorem fileRead_loadWords {w u n j : Nat} (hj : j < keyWords u b) (hn : j < n) :
    fileRead (loadWords w u n k b) j = loadWord w u k b j := by
  rw [loadWords, fileRead_ofFn _ hn, if_pos hj]

/-- A key word is a word of the padded key, as a block's word is of its bytes. -/
theorem loadWord_toNat (wd : Width) (j : Nat) :
    (loadWord wd.bits (wd.bits / 8) k b j).toNat =
      ∑ i ∈ Finset.range (wd.bits / 8),
        (if j * (wd.bits / 8) + i < b then (fileRead k (j * (wd.bits / 8) + i)).toNat else 0) * 2 ^ (8 * i) := by
  have h := wordOfBytes_toNat (keyByte k b) wd j
  rw [leValue_eq_sum] at h
  simp only [keyByte_toNat] at h
  exact h

end

/-! ### The table before mixing (R100) -/

section
variable {w : Nat} (pw qw : Word w)

theorem initWord_toNat (i : Nat) : (initWord pw qw i).toNat = (pw.toNat + i * qw.toNat) % 2 ^ w := by
  induction i with
  | zero => rw [initWord, Nat.zero_mul, Nat.add_zero, Nat.mod_eq_of_lt pw.isLt]
  | succ i ih => rw [initWord, BitVec.toNat_add, ih, Nat.mod_add_mod, Nat.add_assoc, Nat.succ_mul]

theorem fileRead_initTable {t i : Nat} (h : i < t) : fileRead (initTable pw qw t) i = initWord pw qw i := by
  rw [initTable, fileRead_ofFn _ h]

end

/-! ### The mixing loop (R101) -/

section
variable {n w : Nat} {f g : Vector (BitVec w) n}

/-- A write to both of two files leaves the entries alike that were alike, whether it is dropped or not. -/
theorem fileRead_write_congr {j : Nat} (h : fileRead f j = fileRead g j) (i : Nat) (x : BitVec w) :
    fileRead (fileWrite f i x) j = fileRead (fileWrite g i x) j := by
  by_cases hij : i = j
  · subst hij
    obtain hi | hi := Nat.lt_or_ge i n
    · rw [fileRead_write_same f hi, fileRead_write_same g hi]
    · rw [fileRead_of_ge _ hi, fileRead_of_ge _ hi]
  · rw [fileRead_write_other f hij, fileRead_write_other g hij, h]

theorem toNat_fileRead_write {i i' j a b : Nat} {x : BitVec w} (hi : i < n) (hii' : i = i') (hx : x.toNat = a)
    (hf : (fileRead f j).toNat = b) : (fileRead (fileWrite f i x) j).toNat = if j = i' then a else b := by
  subst hii'
  split
  case isTrue hji => rw [hji, fileRead_write_same f hi, hx]
  case isFalse hji => rw [fileRead_write_other f (Ne.symm hji), hf]

end

section
variable {w t n c : Nat}

/-- An iteration reads word J of L only, and writes it. -/
theorem mixStep_withL (m : Mixer w t n) {l : Vector (Word w) n} (h : fileRead m.l m.j = fileRead l m.j) :
    mixStep c { m with l := l } = { mixStep c m with l := fileWrite l m.j (mixStep c m).kb } := by
  simp only [mixStep, h]

/-- The words of L from `c` on do not reach the table. -/
theorem mixLoop_withL (v : Nat) (m : Mixer w t n) (l : Vector (Word w) n) (hj : m.j < c)
    (h : ∀ j, j < c → fileRead m.l j = fileRead l j) :
    (mixLoop c v { m with l := l }).s = (mixLoop c v m).s := by
  induction v generalizing m l with
  | zero => rfl
  | succ v ih =>
    rw [mixLoop, mixLoop, mixStep_withL m (h _ hj)]
    exact ih (mixStep c m) _ (Nat.mod_lt _ (Nat.zero_lt_of_lt hj)) fun j hjc =>
      fileRead_write_congr (h j hjc) m.j _

/-- The engine's mixer holds what the rules' own mixer holds, in the words of both files that are in use. -/
structure Mixer.Follows (c : Nat) (m : Mixer w t n) (x : Claims.MixN) : Prop where
  s_eq  : ∀ i, i < t → (fileRead m.s i).toNat = x.s i
  l_eq  : ∀ j, j < c → (fileRead m.l j).toNat = x.l j
  ka_eq : m.ka.toNat = x.ka
  kb_eq : m.kb.toNat = x.kb
  i_eq  : m.i = x.i
  j_eq  : m.j = x.j
  i_lt  : m.i < t
  j_lt  : m.j < c

theorem toNat_add_add (a b d : Word w) : (a + b + d).toNat = (a.toNat + b.toNat + d.toNat) % 2 ^ w := by
  rw [BitVec.toNat_add, BitVec.toNat_add, Nat.mod_add_mod]

variable {m : Mixer w t n} {x : Claims.MixN} (h : m.Follows c x)
include h

/-- The first line of R101's loop. -/
theorem Mixer.Follows.mixStep_ka : (mixStep c m).ka.toNat = (Claims.mixStepN w t c x).ka := by
  have hs : (fileRead m.s m.i).toNat = x.s x.i := h.i_eq ▸ h.s_eq m.i h.i_lt
  show (rotl (fileRead m.s m.i + m.ka + m.kb) 3).toNat = Claims.rotlN w ((x.s x.i + x.ka + x.kb) % 2 ^ w) 3
  rw [toNat_rotl, toNat_add_add, hs, h.ka_eq, h.kb_eq]

/-- The second line of R101's loop, which uses the new `ka`. -/
theorem Mixer.Follows.mixStep_kb : (mixStep c m).kb.toNat = (Claims.mixStepN w t c x).kb := by
  have hl : (fileRead m.l m.j).toNat = x.l x.j := h.j_eq ▸ h.l_eq m.j h.j_lt
  show (rotl (fileRead m.l m.j + (mixStep c m).ka + m.kb) ((mixStep c m).ka + m.kb).toNat).toNat =
    Claims.rotlN w ((x.l x.j + (Claims.mixStepN w t c x).ka + x.kb) % 2 ^ w)
      (((Claims.mixStepN w t c x).ka + x.kb) % 2 ^ w)
  rw [toNat_rotl, toNat_add_add, BitVec.toNat_add, hl, h.mixStep_ka, h.kb_eq]

theorem Mixer.Follows.mixStep (hc : c ≤ n) : (mixStep c m).Follows c (Claims.mixStepN w t c x) where
  s_eq i hi := toNat_fileRead_write h.i_lt h.i_eq h.mixStep_ka (h.s_eq i hi)
  l_eq j hj := toNat_fileRead_write (h.j_lt.trans_le hc) h.j_eq h.mixStep_kb (h.l_eq j hj)
  ka_eq := h.mixStep_ka
  kb_eq := h.mixStep_kb
  i_eq := congrArg (fun i => (i + 1) % t) h.i_eq
  j_eq := congrArg (fun j => (j + 1) % c) h.j_eq
  i_lt := Nat.mod_lt _ (Nat.zero_lt_of_lt h.i_lt)
  j_lt := Nat.mod_lt _ (Nat.zero_lt_of_lt h.j_lt)

theorem Mixer.Follows.mixLoop (hc : c ≤ n) (v : Nat) :
    (mixLoop c v m).Follows c ((Claims.mixStepN w t c)^[v] x) := by
  induction v generalizing m x with
  | zero => exact h
  | succ v ih => exact ih (h.mixStep hc)

end

/-! ### The key schedule (R102, R104) -/

/-- The engine's key schedule is the rules' own: it starts from the same words and the loop keeps them the same. -/
theorem keySchedule_toNat (p : Params) (k : Vector Byte p.B_MAX) {b i : Nat} (hb : b ≤ p.B_MAX) (hi : i < p.T) :
    (fileRead (keySchedule p k b) i).toNat = Claims.keyScheduleN p (fun n => (fileRead k n).toNat) b i := by
  have hc : keyWords p.U b ≤ p.C_MAX := keyWords_le_C_MAX p hb
  refine (Mixer.Follows.mixLoop (c := keyWords p.U b) ?_ hc (3 * max (keyWords p.U b) p.T)).s_eq i hi
  exact {
    s_eq := fun i hi => by rw [fileRead_initTable _ _ hi, initWord_toNat]
    l_eq := fun j hj => by rw [fileRead_loadWords k b hj (hj.trans_le hc), loadWord_toNat k b p.width]
    ka_eq := BitVec.toNat_zero
    kb_eq := BitVec.toNat_zero
    i_eq := rfl
    j_eq := rfl
    i_lt := Nat.zero_lt_of_lt hi
    j_lt := keyWords_pos _ _ }

/-- The rules' key schedule depends on the width with its constants, on R, and on the key bytes below `b`. -/
theorem keyScheduleN_congr {p p' : Params} (hw : p.width = p'.width) (hr : p.rounds = p'.rounds) {k k' : Nat → Nat}
    {b : Nat} (hk : ∀ n, n < b → k n = k' n) : Claims.keyScheduleN p k b = Claims.keyScheduleN p' k' b := by
  have hmask (n : Nat) : (if n < b then k n else 0) = if n < b then k' n else 0 := by
    split
    case isTrue hn => exact hk n hn
    case isFalse => rfl
  cases p
  cases p'
  subst hw hr
  simp only [Claims.keyScheduleN, hmask]

/-! ### Writes of KEYLEN and KEYDATA (R95, R96, R118, R119) -/

section
variable {p : Params} {e : Engine p} {v : BitVec p.WD}

theorem Engine.regWrite_of_writeCheck {idx : BitVec 12} {c : ErrorCode} (hc : e.writeCheck idx v = c)
    (hne : c ≠ .noError) (lat : Nat) : e.regWrite lat idx v = e.raiseError c idx v := by
  rw [e.regWrite_rejected lat idx v (hc ▸ hne), hc]

theorem Engine.writeCheck_keylen (hb : e.busy = false) :
    e.writeCheck 0x006#12 v = if p.B_MAX < v.toNat % 2 ^ 32 then .keylenRange else .noError := by
  simp [Engine.writeCheck, Engine.keylenCheck, hb]

theorem Engine.writeCheck_keydata (hb : e.busy = false) :
    e.writeCheck 0x007#12 v = if e.keyCount.toNat = p.B_MAX then .keyOverflow else .noError := by
  simp [Engine.writeCheck, Engine.keydataCheck, hb]

/-- COUNT does not wrap, since B_MAX is at most 255 (R10). -/
theorem Engine.writeKeydata_keyCount (h : e.keyCount.toNat < p.B_MAX) :
    (e.writeKeydata v).keyCount.toNat = e.keyCount.toNat + 1 := by
  have hmax : p.B_MAX < 256 := p.keyMax.isLt
  show (e.keyCount + 1).toNat = _
  rw [BitVec.toNat_add]
  exact Nat.mod_eq_of_lt (show e.keyCount.toNat + 1 < 256 by omega)

/-! ### What changes COUNT (R97) -/

theorem effectOf_keyCount {i : Instr} (hk : i ≠ .keyclr) (hs : i ≠ .sched) : (effectOf i e).keyCount = e.keyCount := by
  cases i with
  | keyclr => exact absurd rfl hk
  | sched => exact absurd rfl hs
  | nop | enc | dec | rotl | rotr | rotli | rotri | mulmix => rfl

/-- No register write lowers COUNT: KEYDATA counts up, and the others leave it. -/
theorem Engine.keyCount_le_regWrite (hle : e.keyCount.toNat ≤ p.B_MAX) (lat : Nat) (idx : BitVec 12) :
    e.keyCount.toNat ≤ (e.regWrite lat idx v).keyCount.toNat := by
  obtain ⟨-, h⟩ | h | ⟨-, h⟩ | ⟨-, h⟩ | ⟨-, h⟩ | ⟨i, -, -, -, -, h⟩ | ⟨-, -, -, h⟩ | ⟨-, -, hk, h⟩ | ⟨r, -, -, h⟩ :=
    e.regWrite_cases lat idx v
  · rw [h, Engine.raiseError_eq]
  · rw [h]
  · exact h ▸ Nat.le_refl _
  · exact h ▸ Nat.le_refl _
  · exact h ▸ Nat.le_refl _
  · rw [h, Engine.accept_eq]
  · exact h ▸ Nat.le_refl _
  · rw [h, Engine.writeKeydata_keyCount (hle.lt_of_ne hk)]
    exact Nat.le_succ _
  · exact h ▸ Nat.le_refl _

end

end Sys2Proof.Machine

namespace Sys2Proof

open Sys2Proof.Machine Sys2Proof.Claims

/-! ### The obligations -/

/-- Settles O12: the count is the least that holds every key byte, and C_MAX is that of the longest key. -/
theorem keyWordCount : Obligations.KeyWordCount := by
  intro p b hb
  refine ⟨rfl, keyWords_le_C_MAX p hb, fun h0 => ?_, fun hpos => ⟨?_, le_keyWords_mul (U_pos p) b⟩⟩
  · have hle : keyWords p.U b ≤ 1 := (keyWords_le_iff (U_pos p)).2 ⟨Nat.le_refl 1, h0 ▸ Nat.zero_le _⟩
    exact Nat.le_antisymm hle (keyWords_pos _ _)
  · by_contra hnot
    have hbytes : b ≤ (keyWords p.U b - 1) * p.U := Nat.le_of_not_lt hnot
    have hone : 0 < keyWords p.U b - 1 := Nat.pos_of_mul_pos_right (hpos.trans_le hbytes)
    have hless : keyWords p.U b ≤ keyWords p.U b - 1 := (keyWords_le_iff (U_pos p)).2 ⟨hone, hbytes⟩
    omega

/-- Settles O13: a loaded word is a little-endian sum, and an iteration stays below `c` in L. -/
theorem keyWordsLoadLittleEndian : Obligations.KeyWordsLoadLittleEndian := by
  refine ⟨fun p k b j hb hj => ?_, fun w t n c v m m' hj hm hl => ?_⟩
  · rw [fileRead_loadWords k b hj (hj.trans_le (keyWords_le_C_MAX p hb)), loadWord_toNat k b p.width]
  · rw [hm]
    exact (mixLoop_withL v m m'.l hj hl).symm

/-- Settles O14: entry by entry, by the recurrence and its closed form. -/
theorem tableBeforeMixing : Obligations.TableBeforeMixing := by
  refine ⟨fun w t pw qw ht => ⟨fileRead_initTable pw qw ht, fun i hpos hi => ?_, fun i hi => ?_⟩, rfl, rfl⟩
  · obtain ⟨i, rfl⟩ := Nat.exists_eq_succ_of_ne_zero hpos.ne'
    rw [fileRead_initTable pw qw hi, Nat.succ_sub_one, fileRead_initTable pw qw (Nat.lt_of_succ_lt hi), initWord]
  · rw [fileRead_initTable pw qw hi, initWord_toNat]

/-- Settles O15: the engine's mixer follows the rules' through every iteration. -/
theorem keyScheduleFollowsTheRules : Obligations.KeyScheduleFollowsTheRules := fun p k _ _ hb hi =>
  keySchedule_toNat p k hb hi

/-- Settles O16: both tables are the rules' own, which reads nothing else of the state or the instance. -/
theorem keyScheduleDeterminism : Obligations.KeyScheduleDeterminism := by
  intro s s' hw hr hlen hb hb' hk
  refine ⟨(effectOf .sched s.eng).finish, (effectOf .sched s'.eng).finish, exec_eq .sched s, exec_eq .sched s',
    fun i => ?_⟩
  show (fileRead (keySchedule s.params s.eng.key s.eng.keyLen.toNat) i).toNat =
    (fileRead (keySchedule s'.params s'.eng.key s'.eng.keyLen.toNat) i).toNat
  have hT : s.params.T = s'.params.T := congrArg (fun r : Fin 256 => 2 * r.val + 4) hr
  obtain hi | hi := Nat.lt_or_ge i s.params.T
  · rw [keySchedule_toNat _ _ hb hi, keySchedule_toNat _ _ hb' (hT ▸ hi), ← hlen]
    exact congrFun (keyScheduleN_congr hw hr hk) i
  · rw [fileRead_of_ge _ hi, fileRead_of_ge _ (hT ▸ hi)]
    exact BitVec.toNat_zero.trans BitVec.toNat_zero.symm

/-- Settles O19: of all a step can do, only the two commands' effects and reset lower COUNT. -/
theorem keyclrClearsTheKeyBuffer : Obligations.KeyclrClearsTheKeyBuffer := by
  refine ⟨rfl, issuesUnchecked_of_issueCheck rfl nofun fun _ _ => rfl, illegalWith_row .keyclr,
    fun s => ⟨_, exec_eq .keyclr s, fun n => fileRead_zero n, rfl, rfl⟩, fun s t hs h hlt => ?_⟩
  obtain ⟨e, r, d, q, n, rfl, rfl | ⟨w, m, -, rfl⟩ | ⟨i, hc, rfl⟩ | ⟨lat, idx, v, -, rfl⟩ | ⟨hr, rfl⟩⟩ :=
    step_engine_cases h
  · exact absurd hlt (Nat.lt_irrefl _)
  · exact absurd hlt (Nat.lt_irrefl _)
  · by_cases hk : i = .keyclr
    · exact .inl (hk ▸ hc)
    · by_cases hsched : i = .sched
      · exact .inr (.inl (hsched ▸ hc))
      · exact absurd hlt (congrArg BitVec.toNat (effectOf_keyCount hk hsched)).not_lt
  · exact absurd hlt (Nat.not_lt_of_le (Engine.keyCount_le_regWrite hs.engine.keyCount_le lat idx))
  · exact .inr (.inr hr)

/-- Settles O38: the two checks of KEYDATA, and a byte written at COUNT. -/
theorem keydataAppendsAByte : Obligations.KeydataAppendsAByte := by
  intro p e lat v hle
  refine ⟨fun hb => Engine.regWrite_gated_busy lat hb rfl, fun hb hfull => ?_, fun hb hroom => ?_, rfl⟩
  · exact Engine.regWrite_of_writeCheck ((Engine.writeCheck_keydata hb).trans (if_pos hfull)) (by decide) lat
  · have hlt : e.keyCount.toNat < p.B_MAX := hle.lt_of_ne hroom
    have heff : e.regWrite lat 0x007#12 v = e.writeKeydata v :=
      e.regWrite_accepted lat _ v ((Engine.writeCheck_keydata hb).trans (if_neg hroom))
    dsimp only
    rw [heff]
    refine ⟨?_, fun n hn => fileRead_write_other _ (Ne.symm hn) _, Engine.writeKeydata_keyCount hlt, rfl⟩
    rw [Engine.writeKeydata, fileRead_write_same _ hlt, BitVec.toNat_setWidth]

/-- Settles O20: SCHED's own check, its acceptance, and its effect field by field. -/
theorem schedComputesTheTable : Obligations.SchedComputesTheTable := by
  refine ⟨rfl, illegalWith_row .sched, fun p e lat v hv => ?_, fun s => ⟨_, exec_eq .sched s, rfl,
    fun n => fileRead_zero n, fun j => fileRead_zero j, rfl⟩⟩
  have hd : decode (v.setWidth 32) = .ok .sched := hv ▸ decode_encode rfl
  refine ⟨fun hb => Engine.regWrite_gated_busy lat hb rfl, fun hb hne => ?_, fun hb heq => ?_⟩
  · exact Engine.regWrite_cmd_rejected lat hb hd (if_neg hne) (by decide)
  · rw [Engine.regWrite_cmd_accepted lat hb hd (if_pos heq), Engine.accept_eq, hv]
    simp

/-- Settles O37: the two checks of KEYLEN; a length that passes them fits in eight bits. -/
theorem keylenWrites : Obligations.KeylenWrites := by
  intro p e lat v
  refine ⟨fun hb => Engine.regWrite_gated_busy lat hb rfl, fun hb hgt => ?_, fun hb hle => ?_, rfl⟩
  · exact Engine.regWrite_of_writeCheck ((Engine.writeCheck_keylen hb).trans (if_pos hgt)) (by decide) lat
  · refine ⟨v.setWidth 8,
      e.regWrite_accepted lat _ v ((Engine.writeCheck_keylen hb).trans (if_neg hle.not_gt)), ?_⟩
    have hmax : p.B_MAX < 256 := p.keyMax.isLt
    rw [BitVec.toNat_setWidth]
    omega

end Sys2Proof

/-! The proofs of the statements of 43_cipher.md: Encrypt and Decrypt against the rules' own (R106 to R108), each the
inverse of the other (R111), and ENC and DEC (R109, R110). -/

namespace Sys2Proof.Machine

/-! ### Decrypt undoes Encrypt, and Encrypt undoes Decrypt (R111) -/

section
variable {w t : Nat} (lg : Nat) (sk : Vector (Word w) t) (i r : Nat) (x : Block w)

/-- A round leaves B and D where both directions find them, so t and u are the same words in both. -/
theorem decRound_encRound : decRound lg sk i (encRound lg sk i x) = x := by
  simp [decRound, encRound, rotr_rotl]

theorem encRound_decRound : encRound lg sk i (decRound lg sk i x) = x := by
  simp [decRound, encRound, rotl_rotr]

theorem decRounds_encRounds : decRounds lg sk r (encRounds lg sk r x) = x := by
  induction r with
  | zero => rfl
  | succ r ih => rw [encRounds, decRounds, decRound_encRound, ih]

theorem encRounds_decRounds : encRounds lg sk r (decRounds lg sk r x) = x := by
  induction r generalizing x with
  | zero => rfl
  | succ r ih => rw [decRounds, encRounds, ih, encRound_decRound]

theorem decrypt_encrypt : decrypt lg r sk (encrypt lg r sk x) = x := by
  simp [decrypt, encrypt, decRounds_encRounds]

theorem encrypt_decrypt : encrypt lg r sk (decrypt lg r sk x) = x := by
  simp [decrypt, encrypt, encRounds_decRounds]

end

/-! ### The rules' own algorithms on naturals (R106, R107, R108) -/

section
variable {w t : Nat} (lg : Nat) (sk : Vector (Word w) t) (i r : Nat) (x : Block w)

theorem toNat_mixTerm (y : Word w) : (mixTerm lg y).toNat = Claims.mixN w lg y.toNat := by
  rw [mixTerm, toNat_rotl, toNat_mulmix, Claims.mixN]

theorem toNat_sub_eq_subN (y z : Word w) : (y - z).toNat = Claims.subN w y.toNat z.toNat := by
  rw [BitVec.toNat_sub, Claims.subN, Nat.mod_eq_of_lt z.isLt, Nat.add_comm]

/-- The table as the rules' own algorithms read it. -/
def tableN (n : Nat) : Nat := (fileRead sk n).toNat

theorem quadOf_encRound :
    Claims.quadOf (encRound lg sk i x) = Claims.encRoundN w lg (tableN sk) (Claims.quadOf x) i := by
  simp [Claims.quadOf, encRound, Claims.encRoundN, tableN, toNat_mixTerm, toNat_rotl]

theorem quadOf_decRound :
    Claims.quadOf (decRound lg sk i x) = Claims.decRoundN w lg (tableN sk) (Claims.quadOf x) i := by
  simp only [Claims.quadOf, decRound, Claims.decRoundN, tableN, BitVec.toNat_xor, toNat_rotr, toNat_sub_eq_subN,
    toNat_mixTerm]

/-- The rounds are the rules' loop over i = 1 .. R: its last pass is the last round. -/
theorem quadOf_encRounds :
    Claims.quadOf (encRounds lg sk r x) =
      ((List.range r).map (· + 1)).foldl (Claims.encRoundN w lg (tableN sk)) (Claims.quadOf x) := by
  induction r with
  | zero => rfl
  | succ r ih =>
    rw [encRounds, quadOf_encRound, ih, List.range_succ, List.map_append, List.foldl_append]
    rfl

/-- The rounds are the rules' loop over i = R down to 1: its first pass is round R. -/
theorem quadOf_decRounds :
    Claims.quadOf (decRounds lg sk r x) =
      ((List.range r).map (· + 1)).reverse.foldl (Claims.decRoundN w lg (tableN sk)) (Claims.quadOf x) := by
  induction r generalizing x with
  | zero => rfl
  | succ r ih =>
    rw [decRounds, ih, quadOf_decRound, List.range_succ, List.map_append, List.reverse_append]
    rfl

theorem quadOf_encrypt :
    Claims.quadOf (encrypt lg r sk x) = Claims.encryptN w lg r (tableN sk) (Claims.quadOf x) := by
  have h := quadOf_encRounds lg sk r { x with b := x.b + fileRead sk 0, d := x.d + fileRead sk 1 }
  simp only [Claims.quadOf, encrypt, Claims.encryptN, BitVec.toNat_add, tableN] at h ⊢
  rw [← h]

theorem quadOf_decrypt :
    Claims.quadOf (decrypt lg r sk x) = Claims.decryptN w lg r (tableN sk) (Claims.quadOf x) := by
  have h := quadOf_decRounds lg sk r
    { x with c := x.c - fileRead sk (2 * r + 3), a := x.a - fileRead sk (2 * r + 2) }
  simp only [Claims.quadOf, decrypt, Claims.decryptN, toNat_sub_eq_subN, tableN] at h ⊢
  rw [← h]

end

/-! ### No rounds (R109, R110) -/

section
variable {w t : Nat} (lg : Nat) {r : Nat} (sk : Vector (Word w) t) (x : Block w)

theorem encrypt_of_rounds_zero (hr : r = 0) : encrypt lg r sk x =
    ⟨x.a + fileRead sk 2, x.b + fileRead sk 0, x.c + fileRead sk 3, x.d + fileRead sk 1⟩ := by
  subst hr
  rfl

theorem decrypt_of_rounds_zero (hr : r = 0) : decrypt lg r sk x =
    ⟨x.a - fileRead sk 2, x.b - fileRead sk 0, x.c - fileRead sk 3, x.d - fileRead sk 1⟩ := by
  subst hr
  rfl

end

end Sys2Proof.Machine

namespace Sys2Proof

open Sys2Proof.Machine Sys2Proof.Claims

/-- A command whose only check of its own is NO_KEY (R74). -/
theorem issuesWithKey_of_issueCheck {i : Instr} (hw : i.wellFormed = true) (hs : i ≠ .sched)
    (hc : ∀ (p : Params) (e : Engine p), e.issueCheck i = if e.keyValid then .noError else .noKey) :
    issuesWithKey i := by
  intro p e lat v hv
  have hd : decode (v.setWidth 32) = .ok i := hv ▸ decode_encode hw
  refine ⟨fun hb => Engine.regWrite_gated_busy lat hb rfl, fun hb hk => ?_, fun hb hk => ?_⟩
  · exact Engine.regWrite_cmd_rejected lat hb hd (by rw [hc, hk]; rfl) (by decide)
  · rw [Engine.regWrite_cmd_accepted lat hb hd ((hc p e).trans (if_pos hk)), Engine.accept_eq, hv]
    simp [hs]

/-! ### The obligations -/

/-- Settles O10: every round and both whitenings are undone in the opposite order. -/
theorem encryptDecryptInverse : Obligations.EncryptDecryptInverse :=
  ⟨fun _ _ lg r sk x => ⟨decrypt_encrypt lg sk r x, encrypt_decrypt lg sk r x⟩,
    fun _ _ lg r sk => Function.bijective_iff_has_inverse.2
      ⟨decrypt lg r sk, decrypt_encrypt lg sk r, encrypt_decrypt lg sk r⟩,
    fun s => ⟨_, _, exec_eq .enc s, exec_eq .dec _, decrypt_encrypt _ _ _ _⟩⟩

/-- Settles O11: the whitenings and each round, as numbers. -/
theorem cipherFollowsTheRules : Obligations.CipherFollowsTheRules := fun _ _ lg r sk x =>
  ⟨toNat_mixTerm lg x.b, quadOf_encrypt lg sk r x, quadOf_decrypt lg sk r x⟩

/-- Settles O21: NO_KEY is the one check of ENC and DEC, and their effect is on the block alone. -/
theorem encAndDecTransformTheBlock : Obligations.EncAndDecTransformTheBlock :=
  ⟨rfl, rfl, issuesWithKey_of_issueCheck rfl nofun fun _ _ => rfl,
    issuesWithKey_of_issueCheck rfl nofun fun _ _ => rfl, illegalWith_row .enc, illegalWith_row .dec,
    fun s => ⟨_, exec_eq .enc s, rfl, rfl, encrypt_of_rounds_zero _ _ _⟩,
    fun s => ⟨_, exec_eq .dec s, rfl, rfl, decrypt_of_rounds_zero _ _ _⟩⟩

end Sys2Proof

/-! The proofs of the statements of 60_exceptions.md: errors recorded and writes rejected (R112 to R123), the interrupt
level (R125), a CMD write in the cycle of a completion (R127), and safe steps from the invariant (R54, R124). -/

namespace Sys2Proof.Machine

/-! ### Recording an error (R113, R121) -/

section
variable {p : Params} {e : Engine p} (code : ErrorCode) (idx : BitVec 12) (v : BitVec p.WD)

theorem Engine.raiseError_first (h : e.errCode = .noError) :
    e.raiseError code idx v = { e with errCode := code, errIdx := idx, errData := v } :=
  (e.raiseError_cases code idx v).elim (·.2) fun hlater => absurd h hlater.1

theorem Engine.raiseError_later (h : e.errCode ≠ .noError) : e.raiseError code idx v = { e with errMore := true } :=
  (e.raiseError_cases code idx v).elim (fun hfirst => absurd hfirst.1 h) (·.2)

end

/-! ### The interrupt level (R125) -/

theorem ErrorCode.toBits_eq_zero_iff {c : ErrorCode} : c.toBits = 0 ↔ c = .noError := by
  cases c <;> decide

section
variable {p : Params} (e : Engine p)

theorem Engine.irq_eq_true_iff :
    e.irq = true ↔ (e.die = true ∧ e.done = true) ∨ (e.eie = true ∧ e.errCode ≠ .noError) := by
  rw [Engine.irq, Bool.or_eq_true, Bool.and_eq_true, Bool.and_eq_true, bne_iff_ne, ne_eq, ErrorCode.toBits_eq_zero_iff]

/-- Bit 3 of a read of STATUS is IRQ (R27). -/
theorem Engine.regRead_status_getLsbD_three : (e.regRead 0x002#12).getLsbD 3 = e.irq := by
  have hWD : 3 < p.WD := (by decide : 3 < 32).trans_le (Nat.le_max_left 32 p.W)
  have hbit : e.statusWord.getLsbD 3 = e.irq := by
    simp only [Engine.statusWord, BitVec.getLsbD_append]
    simp
  show (e.statusWord.setWidth p.WD).getLsbD 3 = e.irq
  rw [BitVec.getLsbD_setWidth, hbit, decide_eq_true hWD, Bool.true_and]

end

/-! ### A CMD write in the cycle of a completion (R127) -/

section
variable {s : State}

/-- What a command's meaning leaves, read off an outcome of `exec`. -/
theorem eq_finish_of_exec {i : Instr} {f : Engine s.params} (h : exec i s = .next { s with eng := f }) :
    f = (effectOf i s.eng).finish := by
  rw [exec_eq] at h
  injection h with h
  injection h with _ h
  exact h.symm

/-- The engine step that completes the command in PENDING, listed next. -/
theorem step_completion {rest : List (Event s.params)} {w : BitVec 32} {i : Instr} (hr : s.rstN = true)
    (hq : s.inputs = .engine :: rest) (hp : s.eng.phase = .run w 1) (hd : decode w = .ok i) :
    step s = .next { s with eng := (effectOf i s.eng).finish, inputs := rest } := by
  rw [step_of_completes ⟨hr, .inr (by rw [hq]; rfl), w, 1, hp, Nat.le_refl 1, hd⟩, exec_eq, hq]
  rfl

theorem run_two {t u : State} (h : step s = .next t) (h' : step t = .next u) :
    Host.Core.run Sys2Proof.core 2 s = .next u := by
  rw [run_succ_of_next 1 h, run_succ_of_next 0 h', run_zero]

end

/-! ### Safe steps (R54, R124) -/

/-- One pass of WAIT, said once: it ends, or lists an engine step and itself again (R73). -/
theorem waitStep_cases (s : State) :
    s.waitStep = s.hostRead 0x002 ∨
    s.waitStep = { s.hostRead 0x002 with inputs := .engine :: .waitIdle :: s.inputs } := by
  unfold State.waitStep
  dsimp only
  split
  · exact .inr rfl
  · exact .inl rfl

section
variable {s : State} (hi : EngineInv s.eng)
include hi

/-- The word that a completion finds in PENDING is a command (R74, R75). -/
theorem exists_engineStep : ∃ e, s.engineStep = .next { s with eng := e } := by
  obtain ⟨-, h⟩ | ⟨w, n, hr, hp, hle, -⟩ | ⟨w, n, -, -, h⟩ := engineStep_cases s
  · exact ⟨_, h⟩
  · obtain ⟨-, -, i, hd, -⟩ := hi.running w n hp
    exact ⟨_, (engineStep_complete hr hp hle hd).trans (exec_eq i s)⟩
  · exact ⟨_, h⟩

/-- An event that is no unbound bus access is taken, and lists no new bus access: only the WAIT loop lists anything. -/
theorem exists_handle {ev : Event s.params} (hev : ∀ b, ev = .bus b → b.bind s.params ≠ none) :
    ∃ e r d q n, s.handle ev = .next ⟨s.params, e, r, d, q, n⟩ ∧ ∀ b, .bus b ∈ q → .bus b ∈ s.inputs := by
  have host (a : Access s.params) : ∃ e r d q n,
      s.hostStep a = ⟨s.params, e, r, d, q, n⟩ ∧ ∀ b, .bus b ∈ q → .bus b ∈ s.inputs := by
    obtain ⟨e, d, n, ha, -⟩ := hostStep_eq s a
    exact ⟨e, _, d, _, n, ha, fun _ h => h⟩
  cases ev with
  | engine =>
    obtain ⟨e, he⟩ := exists_engineStep hi
    exact ⟨e, _, _, _, _, he, fun _ h => h⟩
  | host a =>
    obtain ⟨e, r, d, q, n, ha, hq⟩ := host a
    exact ⟨e, r, d, q, n, congrArg _ ha, hq⟩
  | bus b =>
    obtain ⟨a, hb⟩ := Option.ne_none_iff_exists'.1 (hev b rfl)
    obtain ⟨e, r, d, q, n, ha, hq⟩ := host a
    exact ⟨e, r, d, q, n, (handle_bus_bound hb).trans (congrArg _ ha), hq⟩
  | assertReset => exact ⟨_, _, _, _, _, rfl, fun _ h => h⟩
  | releaseReset => exact ⟨_, _, _, _, _, rfl, fun _ h => h⟩
  | waitIdle =>
    obtain h | h := waitStep_cases s
    · exact ⟨_, _, _, _, _, congrArg _ h, fun _ h => h⟩
    · exact ⟨_, _, _, _, _, congrArg _ h, by simp⟩

end

/-- A step from the invariant, every listed bus access being whole: it goes on, and lists no new bus access. -/
theorem exists_step_of_bound {s : State} (hi : EngineInv s.eng) (hb : busBound s) :
    ∃ e r d q n, step s = .next ⟨s.params, e, r, d, q, n⟩ ∧ ∀ b, .bus b ∈ q → .bus b ∈ s.inputs := by
  cases hq : s.inputs with
  | nil =>
    obtain ⟨e, he⟩ := exists_engineStep hi
    exact ⟨e, _, _, _, _, (step_nil hq).trans he, fun b h => hq ▸ h⟩
  | cons ev rest =>
    obtain ⟨e, r, d, q, n, he, hsub⟩ := exists_handle (s := { s with inputs := rest }) hi (ev := ev)
      fun b hev => hb b (by rw [hq, hev]; exact List.mem_cons_self)
    exact ⟨e, r, d, q, n, (step_cons hq).trans he, fun b h => List.mem_cons_of_mem _ (hsub b h)⟩

end Sys2Proof.Machine

namespace Sys2Proof

open Sys2Proof.Machine

/-! ### The obligations -/

/-- Settles O40: a stopped write only records its check's error, as the first or as a later one. -/
theorem rejectedWritesAreErased : Obligations.RejectedWritesAreErased := by
  intro p e lat idx v hc
  dsimp only
  rw [e.regWrite_rejected lat idx v hc]
  refine ⟨e.raiseError_eq _ idx v, fun h => ?_, fun h => ?_⟩
  · rw [Engine.raiseError_first _ idx v h]
    exact ⟨rfl, rfl, rfl, rfl⟩
  · rw [Engine.raiseError_later _ idx v h]
    exact ⟨rfl, rfl, rfl, rfl⟩

/-- Settles O50: the next event is taken, the step keeps the invariant, and it lists no bus access that was not
listed. -/
theorem invariantStepsAreSafe : Obligations.InvariantStepsAreSafe := by
  intro s hs hb
  obtain ⟨e, r, d, q, n, hstep, hsub⟩ := exists_step_of_bound hs.engine hb
  exact ⟨_, hstep, stepKeepsInvariant s _ hs hstep, fun b h => hb b (hsub b h)⟩

/-- Settles O58: host first, the write meets the busy engine and leaves its command in PENDING; engine first, it meets
the engine that the completed command left. -/
theorem sameCycleOrders : Obligations.SameCycleOrders := by
  intro s i v w f hr hp hd hf
  obtain rfl := eq_finish_of_exec hf
  constructor
  · have hb : s.eng.busy = true := s.eng.busy_eq_true.2 ⟨w, 1, hp⟩
    obtain ⟨hphase, -⟩ := s.eng.raiseError_sameCommandState .busy 0x005#12 v
    obtain ⟨lat, h, n, -, hwrite⟩ :=
      (hostStepsAreAtomic { s with inputs := [.host (.write 0x005#12 v), .engine] } _).2 _ _ rfl hr
    rw [Engine.regWrite_gated_busy lat hb rfl] at hwrite
    exact ⟨_, _, _, run_two hwrite (step_completion hr rfl (hphase.trans hp) hd), exec_eq i _⟩
  · have hdone := step_completion (s := { s with inputs := [.engine, .host (.write 0x005#12 v)] }) hr rfl hp hd
    obtain ⟨lat, h, n, -, hwrite⟩ := (hostStepsAreAtomic
      { s with eng := (effectOf i s.eng).finish, inputs := [.host (.write 0x005#12 v)] } _).2 _ _ rfl hr
    exact ⟨_, _, _, run_two hdone hwrite, rfl⟩

/-- Settles O39: the first error and a later one, and the codes one by one. -/
theorem firstErrorIsKept : Obligations.FirstErrorIsKept :=
  ⟨fun _ _ c idx v => ⟨Engine.raiseError_first c idx v, Engine.raiseError_later c idx v⟩, rfl⟩

/-- Settles O44: the level as its two sources, and the bit of STATUS that reads it. -/
theorem interruptLevel : Obligations.InterruptLevel := fun _ e =>
  ⟨e.irq_eq_true_iff, e.regRead_status_getLsbD_three⟩

end Sys2Proof

/-! The proofs of the statements of 70_reset_and_hazards.md: what reset leaves (R135), reset over everything else (R134,
R136), and the rejection of ENC and DEC after reset (R137). -/

namespace Sys2Proof.Machine

/-! ### Reads right after reset (R135) -/

section
variable {p : Params} {idx : BitVec 12}

/-- ID stands at index 0 alone (R22). -/
theorem index_of_ofIndex_id (h : Reg.ofIndex p idx = .id) : idx = 0x000#12 := by
  rcases Reg.ofIndex_split p idx with hidx | ⟨i, hi, rfl⟩ | hidx
  · simp only [List.mem_cons, List.not_mem_nil, or_false] at hidx
    rcases hidx with rfl | rfl | rfl | rfl | rfl | rfl | rfl | rfl | rfl | rfl | rfl | rfl | rfl <;> cases h
    rfl
  · rw [Reg.ofIndex_skey p hi] at h
    cases h
  · rw [Reg.ofIndex_unmapped p hidx] at h
    cases h

theorem Engine.words_reset (p : Params) :
    (Engine.reset p).ctrlWord = 0 ∧ (Engine.reset p).statusWord = 0 ∧ (Engine.reset p).errorWord = 0 ∧
      (Engine.reset p).keylenWord = 0 ∧ (Engine.reset p).keycntWord = 0 :=
  ⟨BitVec.eq_of_toNat_eq (ctrlWord_toNat _), BitVec.eq_of_toNat_eq (statusWord_toNat _),
    BitVec.eq_of_toNat_eq (errorWord_toNat _), BitVec.eq_of_toNat_eq (keylenWord_toNat _),
    BitVec.eq_of_toNat_eq (keycntWord_toNat _)⟩

theorem Engine.regRead_reset (h : Reg.ofIndex p idx ≠ .id) : (Engine.reset p).regRead idx = 0 := by
  obtain ⟨hctrl, hstatus, herror, hkeylen, hkeycnt⟩ := words_reset p
  unfold Engine.regRead
  cases hr : Reg.ofIndex p idx with
  | id => exact absurd hr h
  | errdata | cmd | keydata | unmapped => rfl
  | ctrl | status | error | keylen | keycnt =>
    simp [hctrl, hstatus, herror, hkeylen, hkeycnt]
  | blk r =>
    have hblk : (Engine.reset p).blk.get r = 0 := Block.get_zero r
    simp [hblk]
  | skey i =>
    have hskey : (Engine.reset p).skey[i] = 0 := Vector.getElem_replicate i.isLt
    simp [hskey]

end

/-! ### Steps while reset is asserted (R134) -/

section
variable {s : State} (hr : s.rstN = false)
include hr

theorem engineStep_in_reset : s.engineStep = .next s := by
  simp [State.engineStep, hr]

theorem State.hostWrite_in_reset (idx : BitVec 12) (v : BitVec s.params.WD) :
    s.hostWrite idx v = { s with hRdata := none, draws := s.draws + 1 } := by
  simp [State.hostWrite, hr]

end

end Sys2Proof.Machine

namespace Sys2Proof

open Sys2Proof.Machine Sys2Proof.Claims

/-- Right after reset KEY_VALID is 0 and no error is recorded, so NO_KEY is recorded whole (R116, R121, R137). -/
theorem regWrite_reset_of_issuesWithKey {i : Instr} (hi : issuesWithKey i) {p : Params} (lat : Nat)
    {v : BitVec p.WD} (hv : v.setWidth 32 = encode i) :
    (Engine.reset p).regWrite lat 0x005#12 v =
      { Engine.reset p with errCode := .noKey, errIdx := 0x005#12, errData := v } := by
  obtain ⟨-, hnoKey, -⟩ := hi p (Engine.reset p) lat v hv
  rw [hnoKey rfl rfl, Engine.raiseError_first _ _ _ rfl]

/-! ### The obligations -/

/-- Settles O45: each field as reset sets it, the files entry by entry, and the reads by the register at the index. -/
theorem resetState : Obligations.ResetState := by
  refine ⟨fun p => ?_, rfl, rfl⟩
  exact ⟨rfl, rfl, rfl, rfl, rfl, rfl, rfl, rfl, rfl, rfl, rfl, rfl, rfl, Block.get_zero,
    fileRead_replicate_zero, fileRead_replicate_zero, fileRead_replicate_zero, rfl,
    fun _ hidx => Engine.regRead_reset fun hid => hidx (index_of_ofIndex_id hid)⟩

/-- Settles O46: the step of each event, with rst_n low where the event meets it so. -/
theorem resetOverridesAll : Obligations.ResetOverridesAll := by
  intro s rest
  refine ⟨fun hq => step_cons hq, fun idx v hr hq => ?_, fun hr hq => ?_, fun hq => step_cons hq⟩
  · exact (step_host hq).trans (congrArg _ (State.hostWrite_in_reset (s := { s with inputs := rest }) hr idx v))
  · exact (step_cons hq).trans (engineStep_in_reset (s := { s with inputs := rest }) hr)

/-- Settles O47: NO_KEY is the one check of ENC and DEC, and reset leaves no key, no error and no interrupt source. -/
theorem noKeyAfterReset : Obligations.NoKeyAfterReset := by
  obtain ⟨-, -, henc, hdec, -⟩ := encAndDecTransformTheBlock
  intro p lat v hv
  refine ⟨?_, rfl, rfl, rfl, rfl⟩
  rcases hv with hv | hv
  · exact regWrite_reset_of_issuesWithKey henc lat hv
  · exact regWrite_reset_of_issuesWithKey hdec lat hv

/-- Settles O48: the engine's invariant of the reset engine, which is what the machine holds. -/
theorem resetMeetsInvariant : Obligations.ResetMeetsInvariant := fun p => ⟨engineInv_reset p, fun _ => rfl⟩

end Sys2Proof

/-! The proof of the known-answer statement (V-KS-2 and V-KAT-1 of 95_test_vectors.md): the table that the spec prints
for the all-zero 16-byte key is the one the key schedule computes, and encryption with the printed table gives the
published ciphertext. -/

namespace Sys2Proof.Machine

/-- V-KS-2: S[0] to S[43] of the all-zero 16-byte key with the reference parameters, as the spec prints them. -/
def zeroKeyTable : Vector (Word Params.reference.W) Params.reference.T :=
  #v[
    0x2A66311C, 0x9B17852D, 0x8108B207, 0x39D14185, 0x9C64DF5F, 0x4BED6BCD, 0xB1D88726, 0x4E6EE8C6,
    0x66F7FA9C, 0x429C2724, 0xC955B6BF, 0x9306E49A, 0x75524DD9, 0x56F4DA3C, 0x5EC06B9B, 0xABBC779B,
    0x15EE39A1, 0x66E7755F, 0x0025068D, 0x7CB6D760, 0xA6B4A4BE, 0x11B98FB8, 0x512B019F, 0x5A199FCE,
    0xBD468F9E, 0x1DB66D3A, 0x61B5D390, 0x84BFED42, 0x8690AEE8, 0x774B9EE5, 0x9FD534B1, 0x848939E0,
    0x62A03756, 0xFD977349, 0x59ABCDCA, 0xC8AF1E91, 0x8E6D2107, 0x359B2C7D, 0x63018004, 0xC7B27AE3,
    0x55FCC1B3, 0xC5BD8DB7, 0x05B4016A, 0x4B38AC83]

/-- All 44 words of V-KS-2 (R102). -/
theorem keySchedule_zeroKey : keySchedule Params.reference (fileZero _ 8) 16 = zeroKeyTable := by
  decide +kernel

/-- V-KAT-1, from the printed table (R107). -/
theorem encrypt_zeroKeyTable : encrypt Params.reference.LGW Params.reference.R zeroKeyTable (Block.zero 32) =
    ⟨0x36A5C38F, 0x78F7B156, 0x4EDF29C1, 0x1EA44898⟩ := by
  decide +kernel

end Sys2Proof.Machine

namespace Sys2Proof

open Sys2Proof.Machine

/-- Settles O17: the key schedule gives the printed table, which is read and encrypted with. -/
theorem knownAnswer : Obligations.KnownAnswer := by
  unfold Obligations.KnownAnswer
  dsimp only
  rw [keySchedule_zeroKey, encrypt_zeroKeyTable]
  exact ⟨rfl, rfl, rfl, rfl, rfl, rfl, rfl⟩

end Sys2Proof
